-- ==== Sys2Proof/Word.lean ====
section
/-! DEFINITION. The words of the block (00 R9, R10) and the value types its operations take and return
(10 R28, R29, R30; 44 R189, R190). Types only: everything computed on them stands under Machine/. -/

namespace Sys2Proof

/-- An unsigned 8-bit value (00 R9). -/
abbrev Byte := BitVec 8
/-- An unsigned 4-bit value (00 R9). -/
abbrev Nibble := BitVec 4
/-- An unsigned 32-bit value (00 R9). -/
abbrev U32 := BitVec 32
/-- A finite sequence of bytes (00 R10). -/
abbrev Bytes := List Byte

/-- The transport's error value `e`: opaque to the block and passed on unchanged (10 R30).
DESIGN CHOICE (log 8, safe): a token that is only ever copied; a WouldBlock-style signal is one of them (44 R190). -/
structure TransportError where
  token : Nat
deriving DecidableEq, Repr, Inhabited

/-- The answer of one receive transaction (44 R189). -/
inductive RxResp where
  | byte (b : Byte)            -- RxByte(b): one byte delivered and consumed
  | empty                      -- RxEmpty: no data currently available
  | fail (e : TransportError)  -- RxFail(e): any other transport error
deriving DecidableEq, Repr, Inhabited

/-- The answer of one transmit transaction (44 R190). -/
inductive TxResp where
  | written (n : Nat)          -- Written(n): the count of bytes the transport accepted
  | fail (e : TransportError)  -- TxFail(e)
deriving DecidableEq, Repr, Inhabited

/-- A transport as the block meets it: the answers it will give, in order, as far as they are given.
Past the end of a list the answer is a free value (93: `any value`; log 2). -/
structure Transport where
  rx : List RxResp
  tx : List TxResp
deriving DecidableEq, Repr

/-- The nine standard CAN bitrates (10 R29, 30 R75). -/
inductive BitRate where
  | kbit10 | kbit20 | kbit50 | kbit100 | kbit125 | kbit250 | kbit500 | kbit800 | mbit1
deriving DecidableEq, Repr

/-- `CanFrame` (10 R28): `dlc` is 0..8 by its type; only `data[0..dlc]` is meaningful. -/
structure CanFrame where
  id   : U32
  dlc  : Fin 9
  data : Vector Byte 8
deriving DecidableEq, Repr

/-- `HexResult(T)` (10 R30). -/
inductive HexResult (α : Type) where
  | ok (v : α)
  | invalidHexDigit
deriving DecidableEq, Repr

/-- `EncodeResult` (10 R30, 41 R120). -/
inductive EncodeResult where
  | ok (line : Bytes)
  | invalidLength
deriving DecidableEq, Repr

/-- `AccOut` (10 R30, 42 R146). -/
inductive AccOut where
  | pending
  | line (l : Bytes)
deriving DecidableEq, Repr

/-- `DecodeResult` (10 R30, 43 R168). -/
inductive DecodeResult where
  | frame (f : CanFrame)
  | malformedFrame
  | unsupportedCommand
deriving DecidableEq, Repr

/-- The output of the composite step `AccDecode` (42 R146). -/
inductive AccDecodeOut where
  | pending
  | decoded (r : DecodeResult)
deriving DecidableEq, Repr

/-- `ReadResult` (10 R30, 44 R187). -/
inductive ReadResult where
  | frame (f : CanFrame)
  | notReady
  | invalidData
  | transportFailure (e : TransportError)
deriving DecidableEq, Repr

/-- `WriteResult` (10 R30, 44 R184). -/
inductive WriteResult where
  | written (n : Nat)
  | invalidLength
  | transportFailure (e : TransportError)
deriving DecidableEq, Repr

/-- `CtlResult` (10 R30, 44 R182, R183). -/
inductive CtlResult where
  | ok
  | transportFailure (e : TransportError)
deriving DecidableEq, Repr

end Sys2Proof
end

