-- ==== Sys2Proof/Config.lean ====
section
/-! DEFINITION. What an implementation fixes and what the spec leaves open. Every constant here is opaque and has no body:
nothing can be proved of its value, so a theorem holds whatever it is. -/

namespace Sys2Proof

/-- `MAX_LINE - 22` of this implementation (00 R6, D1: `MAX_LINE >= 22`, no number given). Free (log 4, safe). -/
opaque Config.spareLine : Nat

/-- The byte a buffer cell holds that nothing has written since the socket was created: the first argument tells
one creation from another, the second is the index (70 R230, 93: `any value`). Free (log 3, safe). -/
opaque Config.bufByte : Nat → Nat → Byte

/-- The answer to a receive transaction that `Transport.rx` does not give, by draw number (44 R189, 93: `any value`).
Free (log 2, safe). -/
opaque Config.rxFree : Nat → RxResp

/-- The answer to a transmit transaction that `Transport.tx` does not give, by draw number (44 R190, 93: `any value`).
Free (log 2, safe). -/
opaque Config.txFree : Nat → TxResp

end Sys2Proof
end

