-- ==== Sys2Proof/Machine/Operands.lean ====
section
/-! DEFINITION. The constants, the byte classes and every operand form of the lines: the hex codec (40), the outbound line
formats (41, 30 R63-R67) and the assembly of an inbound line's fields (43, 30 R69-R71). Pure functions of their operands
(40 R108, 41 R125). -/

namespace Sys2Proof.Machine

/-! ## Constants (00 R7, R11). The codes but CR and BEL are the ASCII standard's: PRESUMED (log 6). -/

/-- CR, line terminator (00 R7). -/
def cr : Byte := 0x0D#8
/-- BEL, line terminator on input (00 R7). -/
def bel : Byte := 0x07#8
/-- `'t'` (00 R11). -/
def charT : Byte := 0x74#8
/-- `'S'` (00 R11). -/
def charS : Byte := 0x53#8
/-- `'O'` (00 R11). -/
def charO : Byte := 0x4F#8
/-- `'C'` (00 R11). -/
def charC : Byte := 0x43#8
/-- `MIN_LINE`, the smallest line length that is decoded (00 R7). -/
def minLine : Nat := 5
/-- `DATA_CAP`, the capacity of a frame's data and the largest legal dlc (00 R7). -/
def dataCap : Nat := 8

/-- The terminator class on input: CR or BEL (30 R61). -/
def isTerminator (b : Byte) : Bool := b == cr || b == bel

/-! ## Hex codec (40) -/

/-- `hex_digit_to_value` (40 R100). -/
def hexDigitToValue (b : Byte) : HexResult Nibble :=
  if 0x30#8 ≤ b ∧ b ≤ 0x39#8 then .ok ((b - 0x30#8).setWidth 4)
  else if 0x61#8 ≤ b ∧ b ≤ 0x66#8 then .ok ((b - 0x61#8 + 10#8).setWidth 4)
  else if 0x41#8 ≤ b ∧ b ≤ 0x46#8 then .ok ((b - 0x41#8 + 10#8).setWidth 4)
  else .invalidHexDigit

/-- `two_hex_digits_to_byte` (40 R101): high digit first. -/
def twoHexDigitsToByte (p0 p1 : Byte) : HexResult Byte :=
  match hexDigitToValue p0 with
  | .invalidHexDigit => .invalidHexDigit
  | .ok hi =>
    match hexDigitToValue p1 with
    | .invalidHexDigit => .invalidHexDigit
    | .ok lo => .ok ((hi.setWidth 8 <<< 4) ||| lo.setWidth 8)

/-- One round of `hex_digits_to_u32`: shift the value built so far left by 4 and OR the digit in (40 R102). -/
def hexShiftIn (acc : HexResult U32) (b : Byte) : HexResult U32 :=
  match acc with
  | .invalidHexDigit => .invalidHexDigit
  | .ok v =>
    match hexDigitToValue b with
    | .invalidHexDigit => .invalidHexDigit
    | .ok d => .ok ((v <<< 4) ||| d.setWidth 32)

/-- `hex_digits_to_u32` (40 R102): three digits, most significant first. -/
def hexDigitsToU32 (p0 p1 p2 : Byte) : HexResult U32 :=
  hexShiftIn (hexShiftIn (hexShiftIn (.ok 0#32) p0) p1) p2

/-- The hex alphabet emitted, `"0123456789ABCDEF"` (00 R7). -/
def hexAlphabet : Bytes :=
  [0x30#8, 0x31#8, 0x32#8, 0x33#8, 0x34#8, 0x35#8, 0x36#8, 0x37#8,
   0x38#8, 0x39#8, 0x41#8, 0x42#8, 0x43#8, 0x44#8, 0x45#8, 0x46#8]

/-- `value_to_hex_digit` (40 R103): the alphabet at index `n`. -/
def valueToHexDigit (n : Nibble) : Byte := hexAlphabet.getD n.toNat 0#8

/-- `u32_to_three_hex_digits` (40 R104): the nibbles at shifts 8, 4, 0; bits 31:12 are discarded. -/
def u32ToThreeHexDigits (v : U32) : Bytes :=
  [valueToHexDigit ((v >>> 8).setWidth 4), valueToHexDigit ((v >>> 4).setWidth 4), valueToHexDigit (v.setWidth 4)]

/-- The two digits of one byte, high nibble first (40 R105). -/
def byteToHex (b : Byte) : Bytes :=
  [valueToHexDigit ((b >>> 4).setWidth 4), valueToHexDigit (b.setWidth 4)]

/-- `bytes_to_hex` (40 R105). -/
def bytesToHex : Bytes → Bytes
  | [] => []
  | b :: d => byteToHex b ++ bytesToHex d

/-! ## Outbound lines (41; 30 R63-R67, R72, R75) -/

/-- `code(br)` (30 R75). The two ends are the source's; the seven middle codes are the SLCAN convention, PRESUMED (log 5). -/
def bitRateCode : BitRate → Byte
  | .kbit10  => 0x30#8
  | .kbit20  => 0x31#8
  | .kbit50  => 0x32#8
  | .kbit100 => 0x33#8
  | .kbit125 => 0x34#8
  | .kbit250 => 0x35#8
  | .kbit500 => 0x36#8
  | .kbit800 => 0x37#8
  | .mbit1   => 0x38#8

/-- The bytes of a transmit line (30 R63, R64, R72). -/
def transmitLine (id : U32) (data : Bytes) : Bytes :=
  [charT] ++ u32ToThreeHexDigits id ++ [valueToHexDigit (BitVec.ofNat 4 data.length)] ++ bytesToHex data ++ [cr]

/-- `encode_transmit` (41 R120): no bytes when the payload is longer than 8. -/
def encodeTransmit (id : U32) (data : Bytes) : EncodeResult :=
  if data.length > dataCap then .invalidLength else .ok (transmitLine id data)

/-- `setup_command` (41 R122, 30 R65). -/
def setupCommand (br : BitRate) : Bytes := [charS, bitRateCode br, cr]

/-- `open_command` (41 R123, 30 R66). -/
def openCommand : Bytes := [charO, cr]

/-- `close_command` (41 R124, 30 R67). -/
def closeCommand : Bytes := [charC, cr]

/-! ## Inbound line (43; 30 R69-R71). `l[i]` of the rules is `byteAt l i`; the length stage comes before every data byte,
so no index at or above the line's length decides a result (20 R42). -/

/-- `L[i]` (00 R10). -/
def byteAt (l : Bytes) (i : Nat) : Byte := l.getD i 0#8

/-- Identifier stage: bytes 1, 2, 3 (43 R162, 30 R69). -/
def lineId (l : Bytes) : HexResult U32 := hexDigitsToU32 (byteAt l 1) (byteAt l 2) (byteAt l 3)

/-- DLC stage: byte 4, accepted only in `'0'..'8'` (43 R163, 30 R70). -/
def lineDlc (l : Bytes) : Option (Fin 9) :=
  let b := byteAt l 4
  if h : 0x30 ≤ b.toNat ∧ b.toNat ≤ 0x38 then some ⟨b.toNat - 0x30, by omega⟩ else none

/-- Data byte `k`: bytes `5+2k` and `6+2k` (43 R165, 30 R71). -/
def lineDataByte (l : Bytes) (k : Nat) : HexResult Byte :=
  twoHexDigitsToByte (byteAt l (5 + 2 * k)) (byteAt l (6 + 2 * k))

/-- Data stage: data bytes 0 to `n - 1` in order, or the failure of any of them (43 R165). -/
def lineData (l : Bytes) : Nat → HexResult Bytes
  | 0 => .ok []
  | n + 1 =>
    match lineData l n with
    | .invalidHexDigit => .invalidHexDigit
    | .ok d =>
      match lineDataByte l n with
      | .invalidHexDigit => .invalidHexDigit
      | .ok b => .ok (d ++ [b])

/-- Padding stage: eight bytes, zero from the payload's length on (43 R166). -/
def padData (d : Bytes) : Vector Byte 8 :=
  #v[byteAt d 0, byteAt d 1, byteAt d 2, byteAt d 3, byteAt d 4, byteAt d 5, byteAt d 6, byteAt d 7]

/-- `DecodeLine` (43 R160): the stages in order; bytes after the data field are ignored (43 R167). -/
def decodeLine (l : Bytes) : DecodeResult :=
  if byteAt l 0 != charT then .unsupportedCommand
  else
    match lineId l with
    | .invalidHexDigit => .malformedFrame
    | .ok id =>
      match lineDlc l with
      | none => .malformedFrame
      | some dlc =>
        if l.length < 5 + 2 * dlc.val then .malformedFrame
        else
          match lineData l dlc.val with
          | .invalidHexDigit => .malformedFrame
          | .ok d => .frame ⟨id, dlc, padData d⟩

end Sys2Proof.Machine
end

