-- ==== Sys2Proof/Syntax.lean ====
section
/-! DEFINITION. The operations of the block as syntax: one constructor per mnemonic of spec/opcode_table.json, with the
operands the operation's rule gives it. -/

namespace Sys2Proof

/-- An operation of the block (00 R2): an accumulator transition, a decoder or formatter operation, a codec function,
a host operation or a transport transaction. -/
inductive Instr where
  -- ACC_BYTE: the four accumulator transitions, operand the input byte (30 R76)
  | accEnd (b : Byte)                            -- ACC_END, 42 R141 (both rows: CR and BEL)
  | accAppend (b : Byte)                         -- ACC_APPEND, 42 R143
  | accOverflow (b : Byte)                       -- ACC_OVERFLOW, 42 R144
  | accDrop (b : Byte)                           -- ACC_DROP, 42 R145
  -- LINE_T, LINE_ANY inbound: DecodeLine, operand the line without its terminator (30 R68)
  | decodeT (l : Bytes)                          -- DECODE_T, 43 R160
  | unsupportedCommand (l : Bytes)               -- UNSUPPORTED_COMMAND, 43 R161
  -- LINE_T, LINE_S, LINE_O, LINE_C outbound: the formatter
  | encodeT (id : U32) (data : Bytes)            -- ENCODE_T, 41 R120
  | setup (br : BitRate)                         -- SETUP, 41 R122
  | openCmd                                      -- OPEN_CMD, 41 R123
  | closeCmd                                     -- CLOSE_CMD, 41 R124
  -- FUNCTION: the hex codec
  | hexDigitToValue (b : Byte)                   -- hex_digit_to_value, 40 R100
  | twoHexDigitsToByte (p0 p1 : Byte)            -- two_hex_digits_to_byte, 40 R101
  | hexDigitsToU32 (p0 p1 p2 : Byte)             -- hex_digits_to_u32, 40 R102
  | valueToHexDigit (n : Nibble)                 -- value_to_hex_digit, 40 R103
  | u32ToThreeHexDigits (v : U32)                -- u32_to_three_hex_digits, 40 R104
  | bytesToHex (d : Bytes)                       -- bytes_to_hex, 40 R105
  -- HOST_OP
  | hostNew (t : Transport)                      -- NEW, 70 R230
  | hostOpen (br : BitRate)                      -- OPEN, 44 R182
  | hostClose                                    -- CLOSE, 44 R183
  | hostWrite (id : U32) (data : Bytes)          -- WRITE, 44 R184
  | hostRead                                     -- READ, 44 R185
  -- TRANSACTION
  | rxRead                                       -- RxRead, 44 R189
  | txWrite (l : Bytes)                          -- TxWrite, 44 R190
deriving DecidableEq, Repr

end Sys2Proof
end

