-- ==== Sys2Proof/WellFormed.lean ====
section
/-! DEFINITION. Which terms of `Instr` are operations the spec has: an operand must lie in the class its rule names. -/

namespace Sys2Proof

/-- The operand lies in the class the operation's rule gives it. ACC_END takes a terminator, the other transitions any
other byte (42 R141, R143-R145); DECODE_T a line of at least 5 bytes with byte 0 `t`, UNSUPPORTED_COMMAND one with any
other byte 0 (43 R160, R161). Every other operand is bounded by its type, or is unbounded in the spec. -/
def Instr.wf : Instr → Bool
  | .accEnd b => Machine.isTerminator b
  | .accAppend b => !Machine.isTerminator b
  | .accOverflow b => !Machine.isTerminator b
  | .accDrop b => !Machine.isTerminator b
  | .decodeT l => decide (Machine.minLine ≤ l.length) && l.head? == some Machine.charT
  | .unsupportedCommand l => decide (Machine.minLine ≤ l.length) && l.head? != some Machine.charT
  | .encodeT _ _ => true
  | .setup _ => true
  | .openCmd => true
  | .closeCmd => true
  | .hexDigitToValue _ => true
  | .twoHexDigitsToByte _ _ => true
  | .hexDigitsToU32 _ _ _ => true
  | .valueToHexDigit _ => true
  | .u32ToThreeHexDigits _ => true
  | .bytesToHex _ => true
  | .hostNew _ => true
  | .hostOpen _ => true
  | .hostClose => true
  | .hostWrite _ _ => true
  | .hostRead => true
  | .rxRead => true
  | .txWrite _ => true

end Sys2Proof
end

