-- ==== Sys2Proof/Decode.lean ====
section
/-! DEFINITION. From bytes to operations. There are three maps, told apart by where the bytes stand and not by their value
(00 R2): an input byte with the accumulator's state (30 R76), a complete inbound line (30 R68), and an outbound line
(30 R63-R67). Functions, host operations and transactions have no bit encoding (30 R77). -/

namespace Sys2Proof

/-- Why bytes are no operation. -/
inductive DecodeError where
  | shortLine      -- an inbound line below DecodeLine's 5 bytes (43 R160)
  | truncated      -- an outbound line that ends before its format does
  | unknownCommand -- byte 0 of an outbound line is none of `t`, `S`, `O`, `C` (30 R79)
  | badRate        -- byte 1 of an `S` line is no bitrate code (30 R75)
  | badIdDigit     -- an identifier byte that is no uppercase hex digit (30 R64)
  | badDlcDigit    -- byte 4 of a `t` line outside `'0'..'8'` (30 R70)
  | badDataDigit   -- a data byte that is no uppercase hex digit (30 R64)
  | badTerminator  -- an outbound line that does not end in CR (30 R61)
deriving DecidableEq, Repr

/-! ## Input bytes -/

/-- The accumulator opcode map (30 R76, 42 R140): the terminator test first, then the Errored flag, then the room left. -/
def selectAcc (err : Bool) (count cap : Nat) (b : Byte) : Instr :=
  if Machine.isTerminator b then .accEnd b
  else if err then .accDrop b
  else if count < cap then .accAppend b
  else .accOverflow b

/-! ## Inbound lines -/

/-- The decoder opcode map (30 R68), for a line that meets DecodeLine's precondition of 5 bytes (43 R160). -/
def selectLine (l : Bytes) : Except DecodeError Instr :=
  if l.length < Machine.minLine then .error .shortLine
  else if Machine.byteAt l 0 == Machine.charT then .ok (.decodeT l)
  else .ok (.unsupportedCommand l)

/-! ## Outbound lines. The spec gives these formats for the block to emit and never to decode (30 R65-R67); reading them
back is the model's own (log 16, DESIGN CHOICE, safe). -/

/-- The value of a digit the block may emit: uppercase only (30 R64, R74). -/
def upperDigit (b : Byte) : Option Nibble :=
  match Machine.hexDigitToValue b with
  | .invalidHexDigit => none
  | .ok n => if Machine.valueToHexDigit n == b then some n else none

/-- The BitRate whose code is `b` (30 R75). -/
def bitRateOf (b : Byte) : Option BitRate :=
  [BitRate.kbit10, .kbit20, .kbit50, .kbit100, .kbit125, .kbit250, .kbit500, .kbit800, .mbit1].find?
    (fun br => Machine.bitRateCode br == b)

/-- `n` data bytes from the front of `r`, two digits each, and what follows them (30 R63). -/
def takeData : Nat → Bytes → Except DecodeError (Bytes × Bytes)
  | 0, r => .ok ([], r)
  | n + 1, h :: l :: r =>
    match upperDigit h, upperDigit l with
    | some hi, some lo =>
      match takeData n r with
      | .ok (d, r') => .ok ((hi ++ lo : BitVec 8) :: d, r')
      | .error e => .error e
    | _, _ => .error .badDataDigit
  | _ + 1, _ => .error .truncated

/-- The closing CR of an outbound line, and what follows it (30 R61). -/
def takeCr (i : Instr) : Bytes → Except DecodeError (Instr × Bytes)
  | [] => .error .truncated
  | b :: r => if b == Machine.cr then .ok (i, r) else .error .badTerminator

/-- The fields of an outbound `t` line after its command byte (30 R63, R64). -/
def takeTransmit : Bytes → Except DecodeError (Instr × Bytes)
  | a :: b :: c :: n :: r =>
    match upperDigit a, upperDigit b, upperDigit c with
    | some x, some y, some z =>
      match upperDigit n with
      | none => .error .badDlcDigit
      | some dlc =>
        if 8 < dlc.toNat then .error .badDlcDigit
        else
          match takeData dlc.toNat r with
          | .error e => .error e
          | .ok (d, r') => takeCr (.encodeT ((x ++ y ++ z : BitVec 12).setWidth 32) d) r'
    | _, _, _ => .error .badIdDigit
  | _ => .error .truncated

/-- The fields of an outbound `S` line after its command byte (30 R65). -/
def takeSetup : Bytes → Except DecodeError (Instr × Bytes)
  | [] => .error .truncated
  | k :: r =>
    match bitRateOf k with
    | none => .error .badRate
    | some br => takeCr (.setup br) r

/-- The formatter operation whose line stands at the front of `bs`, and the bytes after it. -/
def decodeCommand : Bytes → Except DecodeError (Instr × Bytes)
  | [] => .error .truncated
  | c :: r =>
    if c == Machine.charT then takeTransmit r
    else if c == Machine.charS then takeSetup r
    else if c == Machine.charO then takeCr .openCmd r
    else if c == Machine.charC then takeCr .closeCmd r
    else .error .unknownCommand

/-! ## The encoder -/

/-- The bytes an operation stands for on the wire: the input byte of a transition (30 R76), the line of a decoder
operation (its terminator excluded), the line a formatter operation emits (30 R63-R67). None for an operation without a bit
encoding (30 R77) and for a payload no line can carry (41 R120). -/
def encode : Instr → Option Bytes
  | .accEnd b => some [b]
  | .accAppend b => some [b]
  | .accOverflow b => some [b]
  | .accDrop b => some [b]
  | .decodeT l => some l
  | .unsupportedCommand l => some l
  | .encodeT id data => if data.length ≤ Machine.dataCap then some (Machine.transmitLine id data) else none
  | .setup br => some (Machine.setupCommand br)
  | .openCmd => some Machine.openCommand
  | .closeCmd => some Machine.closeCommand
  | .hexDigitToValue _ => none
  | .twoHexDigitsToByte _ _ => none
  | .hexDigitsToU32 _ _ _ => none
  | .valueToHexDigit _ => none
  | .u32ToThreeHexDigits _ => none
  | .bytesToHex _ => none
  | .hostNew _ => none
  | .hostOpen _ => none
  | .hostClose => none
  | .hostWrite _ _ => none
  | .hostRead => none
  | .rxRead => none
  | .txWrite _ => none

/-! ## The opcode table's words -/

/-- `n` bytes of a word whose least significant byte is the first. -/
def wordBytes : Nat → Nat → Bytes
  | 0, _ => []
  | n + 1, w => BitVec.ofNat 8 w :: wordBytes n (w / 256)

/-- An opcode-table row fixes byte 0 alone. The fields it gives no bits stand at the value 0, which these ASCII formats
write as the digit `'0'`, and the bytes the format fixes stand as it fixes them (log 15, DESIGN CHOICE). -/
def completeWord : Bytes → Bytes
  | [c] =>
    if c == Machine.charT then [c, 0x30#8, 0x30#8, 0x30#8, 0x30#8]
    else if c == Machine.charS then [c, 0x30#8, Machine.cr]
    else if c == Machine.charO then [c, Machine.cr]
    else if c == Machine.charC then [c, Machine.cr]
    else [c]
  | bs => bs

/-- The operation of bytes whose place is not given: a terminator ends a line, `t` opens an inbound line, `S`, `O` and `C`
open an outbound line, and any other byte is a data byte of the line being filled (log 15). -/
def decodeBytes (bs : Bytes) : Except DecodeError Instr :=
  match bs with
  | [] => .error .truncated
  | b :: _ =>
    if Machine.isTerminator b then .ok (.accEnd b)
    else if b == Machine.charT then selectLine bs
    else if b == Machine.charS || b == Machine.charO || b == Machine.charC then
      match decodeCommand bs with
      | .ok (i, _) => .ok i
      | .error e => .error e
    else .ok (.accAppend b)

/-- The operation the decoder reads from the table's word `w` of `nbits` bits (log 15). -/
def decodeTableWord (nbits w : Nat) : Option Instr :=
  match decodeBytes (completeWord (wordBytes ((nbits + 7) / 8) w)) with
  | .ok i => some i
  | .error _ => none

end Sys2Proof
end

