-- ==== Sys2Proof/Machine/State.lean ====
section
/-! DEFINITION. The machine's state as plain data, the reasons a step can stop, and the state after reset. -/

namespace Sys2Proof.Machine

/-- The cells of the line buffer that were written since the socket was created, by index: indices strictly rising. A cell
not listed holds no written byte (its byte is free, `bufRead`). -/
abbrev Memory := List Host.Cell

/-- The accumulator (10 R20). -/
structure LineAcc where
  buf   : Memory   -- the written cells of `acc.buf`
  fill  : Nat      -- which free contents the other cells have (70 R230; the model's own, log 3)
  count : Nat      -- `acc.count`, 0..MAX_LINE (R22)
  err   : Bool     -- `acc.err`, the only flag (R32)
deriving DecidableEq, Repr

/-- The socket's life (70 R230, R232) and the place a running OPEN has reached (44 R182). -/
inductive SocketPhase where
  | ready      -- the socket exists
  | setupSent  -- the socket exists and a running OPEN has sent its setup line (20 R48)
  | dropped    -- the host has dropped the socket (60 R217)
deriving DecidableEq, Repr

/-- A result an operation returns (10 R30). -/
inductive Result where
  | nibble (r : HexResult Nibble)     -- hex_digit_to_value
  | byte (r : HexResult Byte)         -- two_hex_digits_to_byte
  | u32 (r : HexResult U32)           -- hex_digits_to_u32
  | digit (b : Byte)                  -- value_to_hex_digit
  | bytes (bs : Bytes)                -- u32_to_three_hex_digits, bytes_to_hex, SETUP, OPEN_CMD, CLOSE_CMD
  | encode (r : EncodeResult)         -- ENCODE_T
  | acc (o : AccOut)                  -- the accumulator transitions
  | decode (r : DecodeResult)         -- DECODE_T, UNSUPPORTED_COMMAND
  | rx (r : RxResp)                   -- RxRead
  | tx (r : TxResp)                   -- TxWrite
  | socket                            -- NEW returns the socket
  | ctl (r : CtlResult)               -- OPEN, CLOSE
  | write (r : WriteResult)           -- WRITE
  | read (r : ReadResult)             -- READ
deriving DecidableEq, Repr

/-- What the host can ask of the block: a byte for AccStep (42 R140), a line for DecodeLine (43 R160), any other operation
on its own, or the end of the socket (60 R217). Asking for a byte or a line leaves the selection of the transition or stage
to the opcode maps (30 R76, R68). -/
inductive Request where
  | accStep (b : Byte)
  | decodeLine (l : Bytes)
  | encodeTransmit (id : U32) (data : Bytes)
  | setupCommand (br : BitRate)
  | openCommand
  | closeCommand
  | hexDigitToValue (b : Byte)
  | twoHexDigitsToByte (p0 p1 : Byte)
  | hexDigitsToU32 (p0 p1 p2 : Byte)
  | valueToHexDigit (n : Nibble)
  | u32ToThreeHexDigits (v : U32)
  | bytesToHex (d : Bytes)
  | hostNew (t : Transport)
  | hostOpen (br : BitRate)
  | hostClose
  | hostWrite (id : U32) (data : Bytes)
  | hostRead
  | rxRead
  | txWrite (l : Bytes)
  | drop
deriving DecidableEq, Repr

/-- One transmit transaction: the bytes passed to TxWrite and the transport's answer (44 R190). -/
structure TxRecord where
  line : Bytes
  resp : TxResp
deriving DecidableEq, Repr

/-- The machine. -/
structure State where
  acc       : LineAcc
  spare     : Nat            -- MAX_LINE - 22: the domain MAX_LINE >= 22 (00 R6) holds by construction
  socket    : SocketPhase
  transport : Transport      -- the bound transport (10 R27), as the answers it will give
  draws     : Nat            -- how many free values have been drawn (the model's own, log 2)
  program   : List Request   -- the host's requests, the running one first (44 R181)
  results   : List Result    -- the results returned so far, oldest first (00 R14)
  txLog     : List TxRecord  -- the transmit transactions so far, oldest first (00 R14)
deriving DecidableEq, Repr

/-- `MAX_LINE` (00 R6). -/
def State.maxLine (s : State) : Nat := s.spare + 22

/-- Why the machine stops with a fault. -/
inductive Fault where
  /-- Raised by every operation of a socket once the host has dropped it: "After that no operation exists" (70 R232).
  Safe: nothing follows. -/
  | noSocket
deriving DecidableEq, Repr

/-- Why an operation has no meaning. -/
inductive Refusal where
  /-- An operation without a meaning in `exec`; raised by no arm of this model. Safe. -/
  | notModelled (mnemonic : String)
  /-- Raised by an accumulator transition or a decoder operation outside the condition its rule gives it, where the opcode
  maps select another one (30 R76, R68). Safe: no step raises it. -/
  | notSelected
  /-- Raised by the step for a request that is no operation: DecodeLine asked for on a line below its precondition of 5
  bytes (43 R160). Safe: the spec gives such a line no decode. -/
  | undecodable (e : DecodeError)
deriving DecidableEq, Repr

/-- The machine right after reset: a socket just created by NEW (70 R230, R231; 10 R33) with the host's requests and the
transport's answers still to come. `acc.count` and `acc.err` are the spec's; MAX_LINE and the buffer are free (log 3, 4);
the model's own fields are DESIGN CHOICE (log 7). -/
def State.reset : State where
  acc       := ⟨[], 0, 0, false⟩
  spare     := Config.spareLine
  socket    := .ready
  transport := ⟨[], []⟩
  draws     := 1
  program   := []
  results   := []
  txLog     := []

end Sys2Proof.Machine
end

