-- ==== Sys2Proof/Machine/Flags.lean ====
section
/-! DEFINITION. What the spec computes from the one flag `acc.err` and the count (10 R21, R32; 42 R142). -/

namespace Sys2Proof.Machine

/-- Errored: the current line has overflowed (10 R21). -/
def errored (a : LineAcc) : Bool := a.err

/-- Filling: normal accumulation (10 R21). -/
def filling (a : LineAcc) : Bool := !a.err

/-- Idle: Filling with nothing buffered (10 R21). -/
def idle (a : LineAcc) : Bool := filling a && a.count == 0

/-- The validity of the line a terminator ends (42 R142). -/
def lineValid (a : LineAcc) : Bool := filling a && decide (minLine ≤ a.count)

end Sys2Proof.Machine
end

