-- ==== Sys2Proof/Machine/Ops.lean ====
section
/-! DEFINITION. The named operations on the machine: the line buffer (20), returning a result (00 R12), the transport's two
transactions (44 R189, R190), and the socket's creation and end (70 R230, R232). No outcome traps (60 R207): what other
hardware does on an exception is here a result returned by `retire`, and there is no return from one (60 R209). -/

namespace Sys2Proof.Machine

/-! ## The line buffer -/

/-- The written byte at index `i`, if any. -/
def memFind : Memory → Nat → Option Byte
  | [], _ => none
  | (a, b) :: m, i => if a = i then some b else memFind m i

/-- Write byte `v` at index `i`, keeping the indices strictly rising. -/
def memStore : Memory → Nat → Byte → Memory
  | [], i, v => [(i, v)]
  | (a, b) :: m, i, v =>
    if i < a then (i, v) :: (a, b) :: m
    else if i = a then (i, v) :: m
    else (a, b) :: memStore m i v

/-- The canonical form: indices strictly rising. An unlisted index holds no written byte, so no entry can equal one. -/
abbrev Memory.wf (m : Memory) : Prop := m.Pairwise (fun x y => x.1 < y.1)

/-- `BufRead(i)` (00 R12): the latest byte written at `i` (20 R49), else the free byte the cell was created with (log 3). -/
def bufRead (a : LineAcc) (i : Nat) : Byte := (memFind a.buf i).getD (Config.bufByte a.fill i)

/-- `BufWrite(i, v)` (00 R12). -/
def bufWrite (i : Nat) (v : Byte) (a : LineAcc) : LineAcc := { a with buf := memStore a.buf i v }

/-- `[BufRead(0), ..., BufRead(n-1)]` (20 R42). -/
def bufLine (a : LineAcc) (n : Nat) : Bytes := (List.range n).map (bufRead a)

/-! ## The end of an operation -/

/-- `return v` and `raise E` (00 R12, 60 R207): the running request ends and its result goes to the host. -/
def retire (r : Result) (s : State) : State :=
  { s with program := s.program.tail, results := s.results ++ [r] }

/-- An operation of the socket: it exists only while the socket does (70 R232). -/
def ifSocket (s : State) (o : Host.Outcome State Fault Refusal) : Host.Outcome State Fault Refusal :=
  if s.socket = .dropped then .fault .noSocket else o

/-! ## Transport transactions -/

/-- One receive transaction (44 R189): the transport's next answer, consumed (20 R47); past the answers that are given, a
free one. -/
def rxTransact (s : State) : RxResp × State :=
  match s.transport.rx with
  | r :: rest => (r, { s with transport := { s.transport with rx := rest } })
  | [] => (Config.rxFree s.draws, { s with draws := s.draws + 1 })

/-- One transmit transaction carrying the whole of `l` (44 R190), logged with the transport's answer. -/
def txTransact (l : Bytes) (s : State) : TxResp × State :=
  match s.transport.tx with
  | r :: rest => (r, { s with transport := { s.transport with tx := rest }, txLog := s.txLog ++ [⟨l, r⟩] })
  | [] =>
    let r := Config.txFree s.draws
    (r, { s with draws := s.draws + 1, txLog := s.txLog ++ [⟨l, r⟩] })

/-! ## The socket -/

/-- NEW's effect (70 R230): the socket is bound to `t`, count and flag are 0, the buffer's contents are free anew. -/
def newSocket (t : Transport) (s : State) : State :=
  { s with acc := ⟨[], s.draws, 0, false⟩, socket := .ready, transport := t, draws := s.draws + 1 }

/-- The host drops the socket (60 R217, 70 R232): it gets nothing back, and the request is done. -/
def dropSocket (s : State) : State := { s with socket := .dropped, program := s.program.tail }

end Sys2Proof.Machine
end

