-- ==== Sys2Proof/Machine/Codec.lean ====
section
/-! DEFINITION. The hex codec's functions (40) used on their own (60 R201): each result depends on the operands alone and a
call has no side effect (40 R108). -/

namespace Sys2Proof.Machine

/-- hex_digit_to_value (40 R100). -/
def execHexDigitToValue (b : Byte) (s : State) : Host.Outcome State Fault Refusal :=
  .next (retire (.nibble (hexDigitToValue b)) s)

/-- two_hex_digits_to_byte (40 R101). -/
def execTwoHexDigitsToByte (p0 p1 : Byte) (s : State) : Host.Outcome State Fault Refusal :=
  .next (retire (.byte (twoHexDigitsToByte p0 p1)) s)

/-- hex_digits_to_u32 (40 R102). -/
def execHexDigitsToU32 (p0 p1 p2 : Byte) (s : State) : Host.Outcome State Fault Refusal :=
  .next (retire (.u32 (hexDigitsToU32 p0 p1 p2)) s)

/-- value_to_hex_digit (40 R103). -/
def execValueToHexDigit (n : Nibble) (s : State) : Host.Outcome State Fault Refusal :=
  .next (retire (.digit (valueToHexDigit n)) s)

/-- u32_to_three_hex_digits (40 R104). -/
def execU32ToThreeHexDigits (v : U32) (s : State) : Host.Outcome State Fault Refusal :=
  .next (retire (.bytes (u32ToThreeHexDigits v)) s)

/-- bytes_to_hex (40 R105). -/
def execBytesToHex (d : Bytes) (s : State) : Host.Outcome State Fault Refusal :=
  .next (retire (.bytes (bytesToHex d)) s)

end Sys2Proof.Machine
end

