-- ==== Sys2Proof/Machine/Formatter.lean ====
section
/-! DEFINITION. The frame formatter (41) as operations: stateless, the result depends on the operands alone (41 R125). -/

namespace Sys2Proof.Machine

/-- ENCODE_T (41 R120). -/
def execEncodeT (id : U32) (data : Bytes) (s : State) : Host.Outcome State Fault Refusal :=
  .next (retire (.encode (encodeTransmit id data)) s)

/-- SETUP (41 R122). -/
def execSetup (br : BitRate) (s : State) : Host.Outcome State Fault Refusal :=
  .next (retire (.bytes (setupCommand br)) s)

/-- OPEN_CMD (41 R123). -/
def execOpenCmd (s : State) : Host.Outcome State Fault Refusal :=
  .next (retire (.bytes openCommand) s)

/-- CLOSE_CMD (41 R124). -/
def execCloseCmd (s : State) : Host.Outcome State Fault Refusal :=
  .next (retire (.bytes closeCommand) s)

end Sys2Proof.Machine
end

