-- ==== Sys2Proof/Machine/Parser.lean ====
section
/-! DEFINITION. The frame parser (43) as operations: DecodeLine by the class of byte 0 (30 R68). It reads the line alone and
writes no state (43 R160). -/

namespace Sys2Proof.Machine

/-- DECODE_T (43 R160, R162-R167): a line of at least 5 bytes with byte 0 `t`. -/
def execDecodeT (l : Bytes) (s : State) : Host.Outcome State Fault Refusal :=
  if minLine ≤ l.length ∧ byteAt l 0 = charT then .next (retire (.decode (decodeLine l)) s)
  else .refused .notSelected

/-- UNSUPPORTED_COMMAND (43 R161): a line of at least 5 bytes with any other byte 0; no other byte is examined. -/
def execUnsupportedCommand (l : Bytes) (s : State) : Host.Outcome State Fault Refusal :=
  if minLine ≤ l.length ∧ byteAt l 0 ≠ charT then .next (retire (.decode .unsupportedCommand) s)
  else .refused .notSelected

end Sys2Proof.Machine
end

