-- ==== Sys2Proof/Machine/Accumulator.lean ====
section
/-! DEFINITION. The line accumulator (42): the four transitions, their dispatch, and each as an operation. -/

namespace Sys2Proof.Machine

/-! ## The transitions -/

/-- ACC_END (42 R141): the line is taken before the reset; the buffer is not cleared (10 R24). -/
def accEnd (a : LineAcc) : AccOut × LineAcc :=
  (if lineValid a then .line (bufLine a a.count) else .pending, { a with count := 0, err := false })

/-- ACC_APPEND (42 R143, 20 R41). -/
def accAppend (b : Byte) (a : LineAcc) : AccOut × LineAcc :=
  (.pending, { bufWrite a.count b a with count := a.count + 1 })

/-- ACC_OVERFLOW (42 R144): the byte is dropped and the count stays (90 C3). -/
def accOverflow (a : LineAcc) : AccOut × LineAcc := (.pending, { a with err := true })

/-- ACC_DROP (42 R145). -/
def accDrop (a : LineAcc) : AccOut × LineAcc := (.pending, a)

/-- `AccStep(b)` (42 R140) with `MAX_LINE = cap`. -/
def accStep (cap : Nat) (b : Byte) (a : LineAcc) : AccOut × LineAcc :=
  if isTerminator b then accEnd a
  else if filling a then
    if a.count < cap then accAppend b a else accOverflow a
  else accDrop a

/-- `AccDecode(b)` (42 R146): a line that AccStep yields is decoded within the same step. -/
def accDecode (cap : Nat) (b : Byte) (a : LineAcc) : AccDecodeOut × LineAcc :=
  match accStep cap b a with
  | (.pending, a') => (.pending, a')
  | (.line l, a') => (.decoded (decodeLine l), a')

/-! ## The transitions as operations -/

/-- A transition taken as an operation: it needs the socket's accumulator, and runs where the opcode map selects it
(30 R76). -/
def runTransition (selected : Bool) (o : AccOut × LineAcc) (s : State) : Host.Outcome State Fault Refusal :=
  ifSocket s (if selected then .next (retire (.acc o.1) { s with acc := o.2 }) else .refused .notSelected)

/-- ACC_END (42 R141), for a terminator in any state. -/
def execAccEnd (b : Byte) (s : State) : Host.Outcome State Fault Refusal :=
  runTransition (isTerminator b) (accEnd s.acc) s

/-- ACC_APPEND (42 R143), for any other byte while Filling with room. -/
def execAccAppend (b : Byte) (s : State) : Host.Outcome State Fault Refusal :=
  runTransition (!isTerminator b && filling s.acc && decide (s.acc.count < s.maxLine)) (accAppend b s.acc) s

/-- ACC_OVERFLOW (42 R144), for any other byte while Filling with no room. -/
def execAccOverflow (b : Byte) (s : State) : Host.Outcome State Fault Refusal :=
  runTransition (!isTerminator b && filling s.acc && decide (s.maxLine ≤ s.acc.count)) (accOverflow s.acc) s

/-- ACC_DROP (42 R145), for any other byte while Errored. -/
def execAccDrop (b : Byte) (s : State) : Host.Outcome State Fault Refusal :=
  runTransition (!isTerminator b && errored s.acc) (accDrop s.acc) s

end Sys2Proof.Machine
end

