-- ==== Sys2Proof/Machine/Socket.lean ====
section
/-! DEFINITION. The host operations (44, 70 R230) and the two transport transactions as operations. One step holds one
transport transaction (00 R13, 44 R186): OPEN takes two steps and READ one for each RxRead. -/

namespace Sys2Proof.Machine

/-- NEW(transport) (70 R230): it issues no transaction and cannot fail. -/
def execHostNew (t : Transport) (s : State) : Host.Outcome State Fault Refusal :=
  .next (retire .socket (newSocket t s))

/-- OPEN's first transaction (44 R182): a failed setup write ends it, and the open command is not sent. -/
def openFirst (br : BitRate) (s : State) : State :=
  match txTransact (setupCommand br) s with
  | (.fail e, s1) => retire (.ctl (.transportFailure e)) s1
  | (.written _, s1) => { s1 with socket := .setupSent }

/-- OPEN's second transaction (44 R182). -/
def openSecond (s : State) : State :=
  match txTransact openCommand s with
  | (.fail e, s1) => retire (.ctl (.transportFailure e)) { s1 with socket := .ready }
  | (.written _, s1) => retire (.ctl .ok) { s1 with socket := .ready }

/-- OPEN(br) (44 R182): setup line, then open line. -/
def execHostOpen (br : BitRate) (s : State) : Host.Outcome State Fault Refusal :=
  ifSocket s (.next (if s.socket = .setupSent then openSecond s else openFirst br s))

/-- CLOSE() (44 R183). -/
def execHostClose (s : State) : Host.Outcome State Fault Refusal :=
  ifSocket s (.next
    (match txTransact closeCommand s with
      | (.fail e, s1) => retire (.ctl (.transportFailure e)) s1
      | (.written _, s1) => retire (.ctl .ok) s1))

/-- WRITE(id, data) (44 R184): InvalidLength comes before any transaction (60 R202). -/
def execHostWrite (id : U32) (data : Bytes) (s : State) : Host.Outcome State Fault Refusal :=
  ifSocket s (.next
    (match encodeTransmit id data with
      | .invalidLength => retire (.write .invalidLength) s
      | .ok l =>
        match txTransact l s with
        | (.written n, s1) => retire (.write (.written n)) s1
        | (.fail e, s1) => retire (.write (.transportFailure e)) s1))

/-- What READ makes of a consumed byte's outcome (44 R185, R187): while no valid line has ended, READ stays the running
request and its next step is its next RxRead. -/
def readByte (b : Byte) (s : State) : State :=
  match accDecode s.maxLine b s.acc with
  | (.pending, a) => { s with acc := a }
  | (.decoded (.frame f), a) => retire (.read (.frame f)) { s with acc := a }
  | (.decoded .malformedFrame, a) => retire (.read .invalidData) { s with acc := a }
  | (.decoded .unsupportedCommand, a) => retire (.read .notReady) { s with acc := a }

/-- READ() (44 R185): one pass of its loop. -/
def execHostRead (s : State) : Host.Outcome State Fault Refusal :=
  ifSocket s (.next
    (match rxTransact s with
      | (.fail e, s1) => retire (.read (.transportFailure e)) s1
      | (.empty, s1) => retire (.read .notReady) s1
      | (.byte b, s1) => readByte b s1))

/-- The host drops the socket (60 R217, 70 R232); no row of the opcode table. -/
def execDrop (s : State) : Host.Outcome State Fault Refusal := ifSocket s (.next (dropSocket s))

/-- RxRead() (44 R189), a transaction on its own: the byte goes to the caller, not to the accumulator. -/
def execRxRead (s : State) : Host.Outcome State Fault Refusal :=
  ifSocket s (.next (match rxTransact s with | (r, s1) => retire (.rx r) s1))

/-- TxWrite(l) (44 R190), a transaction on its own. -/
def execTxWrite (l : Bytes) (s : State) : Host.Outcome State Fault Refusal :=
  ifSocket s (.next (match txTransact l s with | (r, s1) => retire (.tx r) s1))

end Sys2Proof.Machine
end

