-- ==== Sys2Proof/Machine/Dispatch.lean ====
section
/-! DEFINITION. One arm per operation. -/

namespace Sys2Proof.Machine

def exec (i : Instr) (s : State) : Host.Outcome State Fault Refusal :=
  match i with
  | .accEnd b => Sys2Proof.Machine.execAccEnd b s
  | .accAppend b => Sys2Proof.Machine.execAccAppend b s
  | .accOverflow b => Sys2Proof.Machine.execAccOverflow b s
  | .accDrop b => Sys2Proof.Machine.execAccDrop b s
  | .decodeT l => Sys2Proof.Machine.execDecodeT l s
  | .unsupportedCommand l => Sys2Proof.Machine.execUnsupportedCommand l s
  | .encodeT id data => Sys2Proof.Machine.execEncodeT id data s
  | .setup br => Sys2Proof.Machine.execSetup br s
  | .openCmd => Sys2Proof.Machine.execOpenCmd s
  | .closeCmd => Sys2Proof.Machine.execCloseCmd s
  | .hexDigitToValue b => Sys2Proof.Machine.execHexDigitToValue b s
  | .twoHexDigitsToByte p0 p1 => Sys2Proof.Machine.execTwoHexDigitsToByte p0 p1 s
  | .hexDigitsToU32 p0 p1 p2 => Sys2Proof.Machine.execHexDigitsToU32 p0 p1 p2 s
  | .valueToHexDigit n => Sys2Proof.Machine.execValueToHexDigit n s
  | .u32ToThreeHexDigits v => Sys2Proof.Machine.execU32ToThreeHexDigits v s
  | .bytesToHex d => Sys2Proof.Machine.execBytesToHex d s
  | .hostNew t => Sys2Proof.Machine.execHostNew t s
  | .hostOpen br => Sys2Proof.Machine.execHostOpen br s
  | .hostClose => Sys2Proof.Machine.execHostClose s
  | .hostWrite id data => Sys2Proof.Machine.execHostWrite id data s
  | .hostRead => Sys2Proof.Machine.execHostRead s
  | .rxRead => Sys2Proof.Machine.execRxRead s
  | .txWrite l => Sys2Proof.Machine.execTxWrite l s

end Sys2Proof.Machine
end

