-- ==== Sys2Proof/Machine/Fetch.lean ====
section
/-! DEFINITION. What runs next. The block fetches no instruction (20 R52): its next behaviour is fixed by the host's next
request and, for a byte or a line, by the opcode maps (00 R2, 10 R31). -/

namespace Sys2Proof.Machine

/-- What the step has to do. -/
inductive Fetched where
  | idle                       -- no operation runs (60 R216)
  | drop                       -- the host drops the socket (60 R217)
  | run (i : Instr)            -- this operation runs
  | reject (e : DecodeError)   -- the request is no operation
deriving DecidableEq, Repr

/-- The operation a decoder's answer stands for. -/
def ofDecoded : Except DecodeError Instr → Fetched
  | .ok i => .run i
  | .error e => .reject e

/-- The operation a request stands for in state `s`: a byte goes through the accumulator's opcode map (30 R76), a line
through the decoder's (30 R68). -/
def select (s : State) : Request → Fetched
  | .accStep b => .run (selectAcc s.acc.err s.acc.count s.maxLine b)
  | .decodeLine l => ofDecoded (selectLine l)
  | .encodeTransmit id data => .run (.encodeT id data)
  | .setupCommand br => .run (.setup br)
  | .openCommand => .run .openCmd
  | .closeCommand => .run .closeCmd
  | .hexDigitToValue b => .run (.hexDigitToValue b)
  | .twoHexDigitsToByte p0 p1 => .run (.twoHexDigitsToByte p0 p1)
  | .hexDigitsToU32 p0 p1 p2 => .run (.hexDigitsToU32 p0 p1 p2)
  | .valueToHexDigit n => .run (.valueToHexDigit n)
  | .u32ToThreeHexDigits v => .run (.u32ToThreeHexDigits v)
  | .bytesToHex d => .run (.bytesToHex d)
  | .hostNew t => .run (.hostNew t)
  | .hostOpen br => .run (.hostOpen br)
  | .hostClose => .run .hostClose
  | .hostWrite id data => .run (.hostWrite id data)
  | .hostRead => .run .hostRead
  | .rxRead => .run .rxRead
  | .txWrite l => .run (.txWrite l)
  | .drop => .drop

/-- The running request, or nothing to do (60 R216). -/
def fetch (s : State) : Fetched :=
  match s.program with
  | [] => .idle
  | r :: _ => select s r

/-- The request that stands for an operation. -/
def requestOf : Instr → Request
  | .accEnd b => .accStep b
  | .accAppend b => .accStep b
  | .accOverflow b => .accStep b
  | .accDrop b => .accStep b
  | .decodeT l => .decodeLine l
  | .unsupportedCommand l => .decodeLine l
  | .encodeT id data => .encodeTransmit id data
  | .setup br => .setupCommand br
  | .openCmd => .openCommand
  | .closeCmd => .closeCommand
  | .hexDigitToValue b => .hexDigitToValue b
  | .twoHexDigitsToByte p0 p1 => .twoHexDigitsToByte p0 p1
  | .hexDigitsToU32 p0 p1 p2 => .hexDigitsToU32 p0 p1 p2
  | .valueToHexDigit n => .valueToHexDigit n
  | .u32ToThreeHexDigits v => .u32ToThreeHexDigits v
  | .bytesToHex d => .bytesToHex d
  | .hostNew t => .hostNew t
  | .hostOpen br => .hostOpen br
  | .hostClose => .hostClose
  | .hostWrite id data => .hostWrite id data
  | .hostRead => .hostRead
  | .rxRead => .rxRead
  | .txWrite l => .txWrite l

/-- The accumulator set so that the opcode map selects the data-byte transition `i` (30 R76); any other operation finds it
as it is. -/
def accFor (i : Instr) (cap : Nat) (a : LineAcc) : LineAcc :=
  match i with
  | .accAppend _ => { a with err := false, count := if a.count < cap then a.count else 0 }
  | .accOverflow _ => { a with err := false, count := if a.count < cap then cap else a.count }
  | .accDrop _ => { a with err := true }
  | _ => a

/-- `s` with operation `i` invoked next: its request stands first, the socket exists, and the accumulator is in the state
that selects it (log 1, log 15). -/
def withRequest (s : State) (i : Instr) : State :=
  { s with
    program := requestOf i :: s.program
    socket  := if s.socket = .dropped then .ready else s.socket
    acc     := accFor i s.maxLine s.acc }

end Sys2Proof.Machine
end

