-- ==== Sys2Proof/Machine/Step.lean ====
section
/-! DEFINITION. One step: the running request's operation, or nothing when no operation runs (60 R216). -/

namespace Sys2Proof.Machine

/-- One step of the block (00 R13). -/
def step (s : State) : Host.Outcome State Fault Refusal :=
  match fetch s with
  | .idle => .next s
  | .drop => execDrop s
  | .run i => exec i s
  | .reject e => .refused (.undecodable e)

/-- `s` with the opcode table's word placed as the next operation (log 15, log 1). A word the decoder refuses changes
nothing. -/
def State.withFetchWord (s : State) (nbits w : Nat) : State :=
  match decodeTableWord nbits w with
  | some i => withRequest s i
  | none => s

end Sys2Proof.Machine
end

