-- ==== Sys2Proof/Safety.lean ====
section
/-! DEFINITION. The terms in which the statements speak: what a step leaves alone, what it returns, what the transport
answers next, the invariants of the block, and feeding many bytes to the accumulator. -/

namespace Sys2Proof.Machine

/-! ## Frames -/

/-- The socket exists (70 R230, R232). -/
def Live (s : State) : Prop := s.socket ≠ .dropped

/-- The accumulator reads the same: count, flag and every byte of the buffer. -/
def SameAcc (s t : State) : Prop :=
  t.acc.count = s.acc.count ∧ t.acc.err = s.acc.err ∧ ∀ i, bufRead t.acc i = bufRead s.acc i

/-- No transport transaction took place. -/
def SameTransport (s t : State) : Prop :=
  t.transport = s.transport ∧ t.draws = s.draws ∧ t.txLog = s.txLog

/-- The socket and the implementation's MAX_LINE are the same. -/
def SameSocket (s t : State) : Prop := t.socket = s.socket ∧ t.maxLine = s.maxLine

/-- The running request ended and `r` is its result (00 R12). -/
def Returns (s t : State) (r : Result) : Prop :=
  t.program = s.program.tail ∧ t.results = s.results ++ [r]

/-- The request goes on: nothing returned, the same requests waiting. -/
def GoesOn (s t : State) : Prop := t.program = s.program ∧ t.results = s.results

/-- Nothing but the returned result changed. -/
def OnlyReturns (s t : State) (r : Result) : Prop :=
  Returns s t r ∧ SameAcc s t ∧ SameTransport s t ∧ SameSocket s t

/-! ## Transport -/

/-- The answer the next receive transaction gets (44 R189): given, or free. -/
def nextRx (s : State) : RxResp := s.transport.rx.headD (Config.rxFree s.draws)

/-- The answer the next transmit transaction gets (44 R190): given, or free. -/
def nextTx (s : State) : TxResp := s.transport.tx.headD (Config.txFree s.draws)

/-- Exactly one receive transaction took place and consumed its answer (20 R47). -/
def RxTaken (s t : State) : Prop :=
  t.transport = ⟨s.transport.rx.tail, s.transport.tx⟩ ∧ t.txLog = s.txLog ∧
  t.draws = s.draws + (if s.transport.rx = [] then 1 else 0)

/-- Exactly one transmit transaction took place, carrying `l`. -/
def TxTaken (l : Bytes) (s t : State) : Prop :=
  t.transport = ⟨s.transport.rx, s.transport.tx.tail⟩ ∧ t.txLog = s.txLog ++ [⟨l, nextTx s⟩] ∧
  t.draws = s.draws + (if s.transport.tx = [] then 1 else 0)

/-! ## Invariants -/

/-- 10 R22, R23 and 20 R41: the count is at most MAX_LINE, an overflowed line fills the buffer, and the buffer's cells are
in canonical form below MAX_LINE. -/
def AccInv (s : State) : Prop :=
  s.acc.count ≤ s.maxLine ∧ (s.acc.err = true → s.acc.count = s.maxLine) ∧
  Memory.wf s.acc.buf ∧ ∀ c ∈ s.acc.buf, c.1 < s.maxLine

/-- 10 R24: every byte of the current line was written. -/
def WrittenBelowCount (s : State) : Prop := ∀ i < s.acc.count, (memFind s.acc.buf i).isSome

/-- 10 R28: a frame the decoder makes has an identifier of 12 bits and zero bytes beyond its dlc. -/
def CanonicalFrame (f : CanFrame) : Prop :=
  f.id.toNat ≤ 0xFFF ∧ ∀ k : Fin 8, f.dlc.val ≤ k.val → f.data[k] = 0#8

/-- Every frame returned so far is canonical. -/
def FramesCanonical (s : State) : Prop :=
  ∀ f, Result.read (.frame f) ∈ s.results ∨ Result.decode (.frame f) ∈ s.results → CanonicalFrame f

/-- A setup line sent without its open line belongs to the OPEN that is running (44 R182). -/
def OpenRuns (s : State) : Prop := s.socket = .setupSent → ∃ br rest, s.program = .hostOpen br :: rest

/-! ## Inbound lines -/

/-- The causes for which a `t` line is MalformedFrame (43 R162-R165): a byte of the identifier that is no hex digit, a byte 4
outside `'0'..'8'`, fewer than `5 + 2·dlc` bytes, or a byte of the data field that is no hex digit. -/
def LineMalformed (l : Bytes) : Prop :=
  (∃ i, 1 ≤ i ∧ i ≤ 3 ∧ hexDigitToValue (l.getD i 0#8) = .invalidHexDigit) ∨
  ¬ (0x30 ≤ (l.getD 4 0#8).toNat ∧ (l.getD 4 0#8).toNat ≤ 0x38) ∨
  l.length < 5 + 2 * ((l.getD 4 0#8).toNat - 0x30) ∨
  ∃ k, k < 2 * ((l.getD 4 0#8).toNat - 0x30) ∧ hexDigitToValue (l.getD (5 + k) 0#8) = .invalidHexDigit

/-! ## Observation (00 R14, 10 R25) -/

/-- The two states differ at most in buffer bytes at or above the count (10 R24). -/
def SameButStale (s t : State) : Prop :=
  t.acc.count = s.acc.count ∧ t.acc.err = s.acc.err ∧ (∀ i < s.acc.count, bufRead t.acc i = bufRead s.acc i) ∧
  t.spare = s.spare ∧ t.socket = s.socket ∧ t.transport = s.transport ∧ t.draws = s.draws ∧
  t.program = s.program ∧ t.results = s.results ∧ t.txLog = s.txLog

/-- A byte the block may emit (30 R79): a command letter, an uppercase hex digit or CR. -/
def Emittable (b : Byte) : Prop :=
  b ∈ [charT, charS, charO, charC, cr] ∨ b ∈ hexAlphabet

/-! ## Many steps and many bytes -/

/-- `k` steps, stopping at the first fault or refusal (the same as the host's `Host.Core.run` of this machine). -/
def runSteps : Nat → State → Host.Outcome State Fault Refusal
  | 0, s => .next s
  | k + 1, s =>
    match step s with
    | .next t => runSteps k t
    | .fault f => .fault f
    | .refused r => .refused r

/-- AccStep (42 R140) on each byte in turn: the outputs and the accumulator left. -/
def feedStep (cap : Nat) : Bytes → LineAcc → List AccOut × LineAcc
  | [], a => ([], a)
  | b :: bs, a =>
    let p := accStep cap b a
    let q := feedStep cap bs p.2
    (p.1 :: q.1, q.2)

/-- AccDecode (42 R146) on each byte in turn: the outputs and the accumulator left. -/
def feedDecode (cap : Nat) : Bytes → LineAcc → List AccDecodeOut × LineAcc
  | [], a => ([], a)
  | b :: bs, a =>
    let p := accDecode cap b a
    let q := feedDecode cap bs p.2
    (p.1 :: q.1, q.2)

/-- `bs` holds no terminator. -/
def NoTerminator (bs : Bytes) : Prop := ∀ b ∈ bs, isTerminator b = false

end Sys2Proof.Machine
end

