-- ==== Sys2Proof/Certificates/Slice0/Obligations.lean ====
section
/-! DEFINITION. The statements about the machine, each formalising the rules of spec/ its docstring names. -/

open Sys2Proof Sys2Proof.Machine

/-! ## Hex codec -/

/-- 40 R100: the value of a hex digit in its three ranges, InvalidHexDigit for every other byte; nothing else changes. -/
def Obligations.HexDigitToValueByRange : Prop :=
  ∀ (b : Byte) (s : State), ∃ r t, exec (.hexDigitToValue b) s = .next t ∧ OnlyReturns s t (.nibble r) ∧
    (0x30 ≤ b.toNat ∧ b.toNat ≤ 0x39 → ∃ n, r = .ok n ∧ n.toNat = b.toNat - 0x30) ∧
    (0x61 ≤ b.toNat ∧ b.toNat ≤ 0x66 → ∃ n, r = .ok n ∧ n.toNat = b.toNat - 0x61 + 10) ∧
    (0x41 ≤ b.toNat ∧ b.toNat ≤ 0x46 → ∃ n, r = .ok n ∧ n.toNat = b.toNat - 0x41 + 10) ∧
    (¬ (0x30 ≤ b.toNat ∧ b.toNat ≤ 0x39) → ¬ (0x61 ≤ b.toNat ∧ b.toNat ≤ 0x66) →
      ¬ (0x41 ≤ b.toNat ∧ b.toNat ≤ 0x46) → r = .invalidHexDigit)

/-- 40 R101: the byte of two digits, high digit first; InvalidHexDigit if either is invalid. -/
def Obligations.TwoHexDigitsMakeByte : Prop :=
  ∀ (p0 p1 : Byte) (s : State), ∃ r t, exec (.twoHexDigitsToByte p0 p1) s = .next t ∧ OnlyReturns s t (.byte r) ∧
    (∀ hi lo, hexDigitToValue p0 = .ok hi → hexDigitToValue p1 = .ok lo →
      ∃ v, r = .ok v ∧ v.toNat = 16 * hi.toNat + lo.toNat) ∧
    (hexDigitToValue p0 = .invalidHexDigit ∨ hexDigitToValue p1 = .invalidHexDigit → r = .invalidHexDigit)

/-- 40 R102: the 32-bit value of three digits, most significant first; InvalidHexDigit if any is invalid. -/
def Obligations.ThreeHexDigitsMakeU32 : Prop :=
  ∀ (p0 p1 p2 : Byte) (s : State), ∃ r t, exec (.hexDigitsToU32 p0 p1 p2) s = .next t ∧ OnlyReturns s t (.u32 r) ∧
    (∀ x y z, hexDigitToValue p0 = .ok x → hexDigitToValue p1 = .ok y → hexDigitToValue p2 = .ok z →
      ∃ v, r = .ok v ∧ v.toNat = 256 * x.toNat + 16 * y.toNat + z.toNat) ∧
    (hexDigitToValue p0 = .invalidHexDigit ∨ hexDigitToValue p1 = .invalidHexDigit ∨
      hexDigitToValue p2 = .invalidHexDigit → r = .invalidHexDigit)

/-- 40 R103: the uppercase digit of a nibble. -/
def Obligations.NibbleMakesUppercaseDigit : Prop :=
  ∀ (n : Nibble) (s : State), ∃ d t, exec (.valueToHexDigit n) s = .next t ∧ OnlyReturns s t (.digit d) ∧
    d.toNat = if n.toNat ≤ 9 then 0x30 + n.toNat else 0x41 + (n.toNat - 10)

/-- 40 R104: the digits of bits 11:8, 7:4 and 3:0, whatever bits 31:12 are. -/
def Obligations.U32MakesThreeDigits : Prop :=
  ∀ (v : U32) (s : State), ∃ t, exec (.u32ToThreeHexDigits v) s = .next t ∧
    OnlyReturns s t (.bytes [valueToHexDigit (BitVec.ofNat 4 (v.toNat / 256)),
      valueToHexDigit (BitVec.ofNat 4 (v.toNat / 16)), valueToHexDigit (BitVec.ofNat 4 v.toNat)])

/-- 40 R105: two digits for each byte, in order, high nibble first. -/
def Obligations.BytesMakeDigitPairs : Prop :=
  ∀ (d : Bytes) (s : State), ∃ out t, exec (.bytesToHex d) s = .next t ∧ OnlyReturns s t (.bytes out) ∧
    out.length = 2 * d.length ∧
    ∀ k b, d[k]? = some b →
      out[2 * k]? = some (valueToHexDigit (BitVec.ofNat 4 (b.toNat / 16))) ∧
      out[2 * k + 1]? = some (valueToHexDigit (BitVec.ofNat 4 b.toNat))

/-- The three inverse laws, the spec's own inference in 40 R107 ("Inverse laws") from R100-R105. -/
def Obligations.HexInverseLaws : Prop :=
  (∀ b : Byte, ∃ h l, bytesToHex [b] = [h, l] ∧ twoHexDigitsToByte h l = .ok b) ∧
  (∀ n : Nibble, hexDigitToValue (valueToHexDigit n) = .ok n) ∧
  ∀ v : U32, ∃ x y z, u32ToThreeHexDigits v = [x, y, z] ∧ hexDigitsToU32 x y z = .ok (v &&& 0xFFF#32)

/-! ## Frame formatter -/

/-- 41 R120: the transmit line of at most 8 bytes, InvalidLength for more; nothing else changes. -/
def Obligations.EncodeTransmitReturnsLine : Prop :=
  ∀ (id : U32) (data : Bytes) (s : State),
    (data.length ≤ 8 → ∃ t, exec (.encodeT id data) s = .next t ∧
      OnlyReturns s t (.encode (.ok ([0x74#8] ++ u32ToThreeHexDigits id ++
        [valueToHexDigit (BitVec.ofNat 4 data.length)] ++ bytesToHex data ++ [0x0D#8])))) ∧
    (8 < data.length → ∃ t, exec (.encodeT id data) s = .next t ∧ OnlyReturns s t (.encode .invalidLength))

/-- An encoded line has `6 + 2·len(data)` bytes, and its last byte is its only CR: the spec's own inference in 41 R121
("Length law") from R120, R104, R105. -/
def Obligations.EncodedLineLength : Prop :=
  ∀ (id : U32) (data out : Bytes), encodeTransmit id data = .ok out →
    out.length = 6 + 2 * data.length ∧ out.getLast? = some 0x0D#8 ∧
    ∀ i, i + 1 < out.length → out[i]? ≠ some 0x0D#8

/-- 41 R123, R124: the two fixed command lines; nothing else changes. -/
def Obligations.FixedCommandLines : Prop :=
  ∀ s : State, (∃ t, exec .openCmd s = .next t ∧ OnlyReturns s t (.bytes [0x4F#8, 0x0D#8])) ∧
    ∃ t, exec .closeCmd s = .next t ∧ OnlyReturns s t (.bytes [0x43#8, 0x0D#8])

/-- 41 R122 with 30 R75: the setup line carries the bitrate's code, and the codes of the nine rates are `'0'` to `'8'` in
the table's order. The seven middle codes are the model's PRESUMED reading (log 5). -/
def Obligations.SetupCommandLine : Prop :=
  (∀ (br : BitRate) (s : State), ∃ t, exec (.setup br) s = .next t ∧
    OnlyReturns s t (.bytes [0x53#8, bitRateCode br, 0x0D#8])) ∧
  [BitRate.kbit10, .kbit20, .kbit50, .kbit100, .kbit125, .kbit250, .kbit500, .kbit800, .mbit1].map bitRateCode =
    (List.range 9).map (fun k => BitVec.ofNat 8 (0x30 + k))

/-! ## Line accumulator -/

/-- 42 R141, R142: a terminator ends the line, valid or not; the buffer keeps its bytes. -/
def Obligations.TerminatorEndsLine : Prop :=
  ∀ (b : Byte) (s : State), b = 0x0D#8 ∨ b = 0x07#8 → Live s → ∃ o t, exec (.accEnd b) s = .next t ∧
    Returns s t (.acc o) ∧ t.acc.count = 0 ∧ t.acc.err = false ∧ (∀ i, bufRead t.acc i = bufRead s.acc i) ∧
    SameTransport s t ∧ SameSocket s t ∧
    (s.acc.err = false ∧ 5 ≤ s.acc.count →
      ∃ l, o = .line l ∧ l.length = s.acc.count ∧ ∀ i < s.acc.count, l[i]? = some (bufRead s.acc i)) ∧
    (¬ (s.acc.err = false ∧ 5 ≤ s.acc.count) → o = .pending)

/-- 42 R143, 20 R41: a data byte is stored at the count, every other cell keeps its byte. -/
def Obligations.AppendStoresByteAtCount : Prop :=
  ∀ (b : Byte) (s : State), b ≠ 0x0D#8 → b ≠ 0x07#8 → Live s → s.acc.err = false → s.acc.count < s.maxLine →
    ∃ t, exec (.accAppend b) s = .next t ∧ Returns s t (.acc .pending) ∧
      t.acc.count = s.acc.count + 1 ∧ t.acc.err = false ∧ bufRead t.acc s.acc.count = b ∧
      (∀ i, i ≠ s.acc.count → bufRead t.acc i = bufRead s.acc i) ∧ SameTransport s t ∧ SameSocket s t

/-- 42 R144: a data byte on a full line sets the flag and is stored nowhere. -/
def Obligations.OverflowSetsErrored : Prop :=
  ∀ (b : Byte) (s : State), b ≠ 0x0D#8 → b ≠ 0x07#8 → Live s → s.acc.err = false → s.acc.count = s.maxLine →
    ∃ t, exec (.accOverflow b) s = .next t ∧ Returns s t (.acc .pending) ∧
      t.acc.err = true ∧ t.acc.count = s.maxLine ∧ (∀ i, bufRead t.acc i = bufRead s.acc i) ∧
      SameTransport s t ∧ SameSocket s t

/-- 42 R145: while Errored a data byte changes nothing. -/
def Obligations.DropChangesNothing : Prop :=
  ∀ (b : Byte) (s : State), b ≠ 0x0D#8 → b ≠ 0x07#8 → Live s → s.acc.err = true →
    ∃ t, exec (.accDrop b) s = .next t ∧ OnlyReturns s t (.acc .pending)

/-- 42 R140, 30 R76: AccStep runs the transition of the dispatch, the terminator test first. -/
def Obligations.AccStepRunsSelectedTransition : Prop :=
  ∀ (b : Byte) (s : State) (rest : List Request), s.program = .accStep b :: rest →
    (b = 0x0D#8 ∨ b = 0x07#8 → step s = exec (.accEnd b) s) ∧
    (b ≠ 0x0D#8 → b ≠ 0x07#8 → s.acc.err = false → s.acc.count < s.maxLine → step s = exec (.accAppend b) s) ∧
    (b ≠ 0x0D#8 → b ≠ 0x07#8 → s.acc.err = false → s.maxLine ≤ s.acc.count → step s = exec (.accOverflow b) s) ∧
    (b ≠ 0x0D#8 → b ≠ 0x07#8 → s.acc.err = true → step s = exec (.accDrop b) s)

/-- The model's choice (log 10), from 42 R141-R145 and 43 R160, R161: an operation named outside the condition its rule
gives it is refused by name. -/
def Obligations.UnselectedOperationIsRefused : Prop :=
  ∀ (b : Byte) (l : Bytes) (s : State), Live s →
    (isTerminator b = false → exec (.accEnd b) s = .refused .notSelected) ∧
    (isTerminator b = true ∨ s.acc.err = true ∨ s.maxLine ≤ s.acc.count →
      exec (.accAppend b) s = .refused .notSelected) ∧
    (isTerminator b = true ∨ s.acc.err = true ∨ s.acc.count < s.maxLine →
      exec (.accOverflow b) s = .refused .notSelected) ∧
    (isTerminator b = true ∨ s.acc.err = false → exec (.accDrop b) s = .refused .notSelected) ∧
    (l.length < 5 ∨ l.getD 0 0#8 ≠ 0x74#8 → exec (.decodeT l) s = .refused .notSelected) ∧
    (l.length < 5 ∨ l.getD 0 0#8 = 0x74#8 → exec (.unsupportedCommand l) s = .refused .notSelected)

/-- 90 C8, 42 R141: CR and BEL are the same transition, alone and inside AccStep. -/
def Obligations.CrAndBelAlike : Prop :=
  (∀ s : State, exec (.accEnd 0x0D#8) s = exec (.accEnd 0x07#8) s) ∧
  ∀ (cap : Nat) (a : LineAcc), accStep cap 0x0D#8 a = accStep cap 0x07#8 a

/-- 42 R146: AccDecode gives Pending where AccStep does, and otherwise the decoded line; a line comes only from a
terminator while not Errored, and has at least 5 and, where the count is at most MAX_LINE (R22), at most MAX_LINE
bytes. -/
def Obligations.AccDecodeComposesStepAndDecode : Prop :=
  ∀ (cap : Nat) (b : Byte) (a : LineAcc),
    (accDecode cap b a).2 = (accStep cap b a).2 ∧
    ((accStep cap b a).1 = .pending → (accDecode cap b a).1 = .pending) ∧
    ∀ l, (accStep cap b a).1 = .line l → (accDecode cap b a).1 = .decoded (decodeLine l) ∧ 5 ≤ l.length ∧
      isTerminator b = true ∧ a.err = false ∧ (a.count ≤ cap → l.length ≤ cap)

/-- The spec's own inference in 42 R147 ("Line isolation law"): a terminator leaves count 0 and flag 0, and from such a
state the outputs depend on the bytes alone. -/
def Obligations.LineIsolation : Prop :=
  (∀ (cap : Nat) (b : Byte) (a : LineAcc), isTerminator b = true →
    (accDecode cap b a).2.count = 0 ∧ (accDecode cap b a).2.err = false) ∧
  ∀ (cap : Nat) (bs : Bytes) (a a' : LineAcc), a.count = 0 → a.err = false → a'.count = 0 → a'.err = false →
    (feedDecode cap bs a).1 = (feedDecode cap bs a').1

/-- The spec's own inference in 42 R148 ("Overflow law"): on a line longer than MAX_LINE exactly the byte after the
MAX_LINE-th sets Errored and nothing is decoded; a line of exactly MAX_LINE bytes is decoded. -/
def Obligations.OverflowedLineIsNeverDecoded : Prop :=
  ∀ (cap : Nat) (bs : Bytes) (e : Byte) (a : LineAcc), 22 ≤ cap → a.count = 0 → a.err = false → NoTerminator bs →
    isTerminator e = true →
    (∀ k ≤ bs.length, ((feedDecode cap (bs.take k) a).2.err = true ↔ cap < k)) ∧
    (cap < bs.length → (feedDecode cap (bs ++ [e]) a).1 = List.replicate (bs.length + 1) .pending) ∧
    (bs.length = cap → (feedDecode cap (bs ++ [e]) a).1 =
      List.replicate bs.length .pending ++ [.decoded (decodeLine bs)])

/-- The spec's own inference in 42 R149 ("Short-line law"): a line of 0 to 4 bytes is absorbed at its terminator whatever
its bytes are. -/
def Obligations.ShortLineIsAbsorbed : Prop :=
  ∀ (cap : Nat) (bs : Bytes) (e : Byte) (a : LineAcc), a.count = 0 → a.err = false → NoTerminator bs →
    isTerminator e = true → bs.length ≤ 4 →
    (feedDecode cap (bs ++ [e]) a).1 = List.replicate (bs.length + 1) .pending ∧
    (feedDecode cap (bs ++ [e]) a).2.count = 0 ∧ (feedDecode cap (bs ++ [e]) a).2.err = false

/-- 20 R41, R42, 42 R141, R143: a line of 5 to MAX_LINE bytes is handed over exactly as it was fed. -/
def Obligations.LineHandedOverAsFed : Prop :=
  ∀ (cap : Nat) (bs : Bytes) (e : Byte) (a : LineAcc), a.count = 0 → a.err = false → NoTerminator bs →
    isTerminator e = true → 5 ≤ bs.length → bs.length ≤ cap →
    (feedStep cap (bs ++ [e]) a).1 = List.replicate bs.length .pending ++ [.line bs]

/-! ## Frame parser -/

/-- 43 R161: a line of at least 5 bytes whose byte 0 is not `t` is UnsupportedCommand whatever else it holds. For a line
longer than MAX_LINE, outside R160's precondition, this is the model's choice (log 11, DEDUCED). -/
def Obligations.OtherCommandIsUnsupported : Prop :=
  ∀ (l : Bytes) (s : State), 5 ≤ l.length → l.getD 0 0#8 ≠ 0x74#8 →
    ∃ t, exec (.unsupportedCommand l) s = .next t ∧ OnlyReturns s t (.decode .unsupportedCommand)

/-- 43 R160, R162-R167: a `t` line is MalformedFrame for the named causes, and otherwise gives the frame of its fields,
zero beyond dlc; bytes after the data field change nothing. For a line longer than MAX_LINE, outside R160's
precondition, this is the model's choice (log 11, DEDUCED). -/
def Obligations.TransmitLineDecodes : Prop :=
  ∀ (l : Bytes) (s : State), 5 ≤ l.length → l.getD 0 0#8 = 0x74#8 →
    (LineMalformed l → ∃ t, exec (.decodeT l) s = .next t ∧ OnlyReturns s t (.decode .malformedFrame)) ∧
    (¬ LineMalformed l → ∃ f t, exec (.decodeT l) s = .next t ∧ OnlyReturns s t (.decode (.frame f)) ∧
      f.dlc.val = (l.getD 4 0#8).toNat - 0x30 ∧
      (∀ x y z, hexDigitToValue (l.getD 1 0#8) = .ok x → hexDigitToValue (l.getD 2 0#8) = .ok y →
        hexDigitToValue (l.getD 3 0#8) = .ok z → f.id.toNat = 256 * x.toNat + 16 * y.toNat + z.toNat) ∧
      (∀ k : Fin 8, k.val < f.dlc.val → ∀ hi lo, hexDigitToValue (l.getD (5 + 2 * k.val) 0#8) = .ok hi →
        hexDigitToValue (l.getD (6 + 2 * k.val) 0#8) = .ok lo → f.data[k].toNat = 16 * hi.toNat + lo.toNat) ∧
      ∀ k : Fin 8, f.dlc.val ≤ k.val → f.data[k] = 0#8)

/-- 43 R167: bytes appended to a line that decodes to a frame are ignored. Where the line grows beyond MAX_LINE, outside
R160's precondition, this is the model's choice (log 11, DEDUCED). -/
def Obligations.TrailingBytesIgnored : Prop :=
  ∀ (l extra : Bytes) (f : CanFrame), decodeLine l = .frame f → decodeLine (l ++ extra) = .frame f

/-- The spec's own inference in 43 R170 ("Round-trip law"): feeding an encoded line to a fresh accumulator gives Pending
for every byte but the last, and at the CR the frame with the low 12 bits of the identifier and the payload padded
with zeros. -/
def Obligations.EncodeThenAccDecodeRoundTrip : Prop :=
  ∀ (cap : Nat) (id : U32) (data line : Bytes) (a : LineAcc), 22 ≤ cap → a.count = 0 → a.err = false →
    encodeTransmit id data = .ok line →
    ∃ f, (feedDecode cap line a).1 = List.replicate (line.length - 1) .pending ++ [.decoded (.frame f)] ∧
      f.id = id &&& 0xFFF#32 ∧ f.dlc.val = data.length ∧ ∀ k : Fin 8, f.data[k] = data.getD k.val 0#8

/-! ## Host operations and transactions -/

/-- 70 R230: NEW binds the transport and leaves count 0 and flag 0; it makes no transaction and cannot fail. -/
def Obligations.NewCreatesFreshSocket : Prop :=
  ∀ (tr : Transport) (s : State), ∃ t, exec (.hostNew tr) s = .next t ∧ Returns s t .socket ∧
    t.transport = tr ∧ t.acc.count = 0 ∧ t.acc.err = false ∧ t.socket = .ready ∧ t.maxLine = s.maxLine ∧
    t.txLog = s.txLog

/-- 44 R182: OPEN writes the setup line, then the open line; the first failing write ends it, and a short count is
success. The two writes are two steps (the model's reading, log 13); the accumulator is not touched. -/
def Obligations.OpenWritesSetupThenOpen : Prop :=
  ∀ (br : BitRate) (s : State),
    (s.socket = .ready → (∀ e, nextTx s = .fail e → ∃ t, exec (.hostOpen br) s = .next t ∧
      Returns s t (.ctl (.transportFailure e)) ∧ TxTaken [0x53#8, bitRateCode br, 0x0D#8] s t ∧
      SameAcc s t ∧ SameSocket s t)) ∧
    (s.socket = .ready → (∀ n, nextTx s = .written n → ∃ t, exec (.hostOpen br) s = .next t ∧
      GoesOn s t ∧ TxTaken [0x53#8, bitRateCode br, 0x0D#8] s t ∧
      SameAcc s t ∧ t.socket = .setupSent ∧ t.maxLine = s.maxLine)) ∧
    (s.socket = .setupSent → (∀ e, nextTx s = .fail e → ∃ t, exec (.hostOpen br) s = .next t ∧
      Returns s t (.ctl (.transportFailure e)) ∧ TxTaken [0x4F#8, 0x0D#8] s t ∧
      SameAcc s t ∧ t.socket = .ready ∧ t.maxLine = s.maxLine)) ∧
    (s.socket = .setupSent → (∀ n, nextTx s = .written n → ∃ t, exec (.hostOpen br) s = .next t ∧
      Returns s t (.ctl .ok) ∧ TxTaken [0x4F#8, 0x0D#8] s t ∧
      SameAcc s t ∧ t.socket = .ready ∧ t.maxLine = s.maxLine))

/-- 44 R182: the whole of an OPEN whose two writes are accepted. That it takes two steps is the model's choice (log 13,
DEDUCED from 00 R13, 20 R48). -/
def Obligations.OpenRunsInTwoSteps : Prop :=
  ∀ (br : BitRate) (s : State) (n m : Nat) (rest : List TxResp) (more : List Request),
    s.socket = .ready → s.program = .hostOpen br :: more → s.transport.tx = .written n :: .written m :: rest →
    ∃ t, runSteps 2 s = .next t ∧ t.program = more ∧ t.results = s.results ++ [.ctl .ok] ∧
      t.txLog = s.txLog ++ [⟨[0x53#8, bitRateCode br, 0x0D#8], .written n⟩, ⟨[0x4F#8, 0x0D#8], .written m⟩] ∧
      t.transport = ⟨s.transport.rx, rest⟩ ∧ SameAcc s t ∧ SameSocket s t

/-- 44 R183: CLOSE writes the close line once. -/
def Obligations.CloseWritesCloseLine : Prop :=
  ∀ s : State, Live s →
    (∀ e, nextTx s = .fail e → ∃ t, exec .hostClose s = .next t ∧ Returns s t (.ctl (.transportFailure e)) ∧
      TxTaken [0x43#8, 0x0D#8] s t ∧ SameAcc s t ∧ SameSocket s t) ∧
    (∀ n, nextTx s = .written n → ∃ t, exec .hostClose s = .next t ∧ Returns s t (.ctl .ok) ∧
      TxTaken [0x43#8, 0x0D#8] s t ∧ SameAcc s t ∧ SameSocket s t)

/-- 44 R184, 60 R202: WRITE of more than 8 bytes is InvalidLength with no transaction; otherwise one transmit of the
encoded line, whose answer is returned as it is. -/
def Obligations.WriteSendsEncodedLine : Prop :=
  ∀ (id : U32) (data : Bytes) (s : State), Live s →
    (8 < data.length → ∃ t, exec (.hostWrite id data) s = .next t ∧ OnlyReturns s t (.write .invalidLength)) ∧
    (data.length ≤ 8 → ∃ line, encodeTransmit id data = .ok line ∧
      (∀ n, nextTx s = .written n → ∃ t, exec (.hostWrite id data) s = .next t ∧
        Returns s t (.write (.written n)) ∧ TxTaken line s t ∧ SameAcc s t ∧ SameSocket s t) ∧
      (∀ e, nextTx s = .fail e → ∃ t, exec (.hostWrite id data) s = .next t ∧
        Returns s t (.write (.transportFailure e)) ∧ TxTaken line s t ∧ SameAcc s t ∧ SameSocket s t))

/-- 44 R185, R187, R188: one pass of READ's loop. No data and a failure end it with the accumulator untouched; a byte goes
through AccDecode, and only a decoded line ends the READ. -/
def Obligations.ReadPassFollowsAccDecode : Prop :=
  ∀ s : State, Live s → ∃ t, exec .hostRead s = .next t ∧ RxTaken s t ∧ SameSocket s t ∧
    (nextRx s = .empty → Returns s t (.read .notReady) ∧ SameAcc s t) ∧
    (∀ e, nextRx s = .fail e → Returns s t (.read (.transportFailure e)) ∧ SameAcc s t) ∧
    ∀ b, nextRx s = .byte b → t.acc = (accDecode s.maxLine b s.acc).2 ∧
      ((accDecode s.maxLine b s.acc).1 = .pending → GoesOn s t) ∧
      (∀ f, (accDecode s.maxLine b s.acc).1 = .decoded (.frame f) → Returns s t (.read (.frame f))) ∧
      ((accDecode s.maxLine b s.acc).1 = .decoded .malformedFrame → Returns s t (.read .invalidData)) ∧
      ((accDecode s.maxLine b s.acc).1 = .decoded .unsupportedCommand → Returns s t (.read .notReady))

/-- The spec's own inferences in 44 R186 and 70 R243 from R185, R189, R146: READ takes one step for each byte, and while
no byte has completed a valid line it is still the running request and has returned nothing, however many bytes there
were. -/
def Obligations.ReadRunsOnWithoutValidLine : Prop :=
  ∀ (bs : Bytes) (s : State) (more : List Request) (rest : List RxResp), Live s → s.program = .hostRead :: more →
    s.transport.rx = bs.map .byte ++ rest →
    (feedDecode s.maxLine bs s.acc).1 = List.replicate bs.length .pending →
    ∃ t, runSteps bs.length s = .next t ∧ GoesOn s t ∧ SameSocket s t ∧
      t.acc = (feedDecode s.maxLine bs s.acc).2 ∧ t.transport = ⟨rest, s.transport.tx⟩ ∧ t.txLog = s.txLog

/-- 44 R185 and the spec's own inference in 70 R238 from it: READ returns at the first valid line's terminator with that
line's result, and the bytes after it stay with the transport. -/
def Obligations.ReadReturnsAtFirstValidLine : Prop :=
  ∀ (bs : Bytes) (e : Byte) (r : DecodeResult) (s : State) (more : List Request) (rest : List RxResp),
    Live s → s.program = .hostRead :: more → s.transport.rx = bs.map .byte ++ .byte e :: rest →
    (feedDecode s.maxLine (bs ++ [e]) s.acc).1 = List.replicate bs.length .pending ++ [.decoded r] →
    ∃ t, runSteps (bs.length + 1) s = .next t ∧ t.program = more ∧
      t.transport = ⟨rest, s.transport.tx⟩ ∧ t.txLog = s.txLog ∧ SameSocket s t ∧
      t.acc.count = 0 ∧ t.acc.err = false ∧
      ((∃ f, r = .frame f ∧ t.results = s.results ++ [.read (.frame f)]) ∨
        (r = .malformedFrame ∧ t.results = s.results ++ [.read .invalidData]) ∨
        (r = .unsupportedCommand ∧ t.results = s.results ++ [.read .notReady]))

/-- The round-trip law (the spec's own inference, 43 R170) at the host's interface (95 P3): a line that WRITE can send,
received by a READ on a fresh accumulator, is delivered as the frame that was written. -/
def Obligations.WrittenFrameIsDelivered : Prop :=
  ∀ (id : U32) (data line : Bytes) (s : State) (more : List Request) (rest : List RxResp),
    Live s → s.acc.count = 0 → s.acc.err = false → s.program = .hostRead :: more →
    encodeTransmit id data = .ok line → s.transport.rx = line.map .byte ++ rest →
    ∃ f t, runSteps (6 + 2 * data.length) s = .next t ∧ t.program = more ∧
      t.results = s.results ++ [.read (.frame f)] ∧ t.transport = ⟨rest, s.transport.tx⟩ ∧ t.txLog = s.txLog ∧
      t.acc.count = 0 ∧ t.acc.err = false ∧
      f.id = id &&& 0xFFF#32 ∧ f.dlc.val = data.length ∧ ∀ k : Fin 8, f.data[k] = data.getD k.val 0#8

/-- The spec's own inference in 60 R208 from R141, R185: after a READ that a byte ended, the accumulator is fresh; after
one that no byte ended, it is as it was. -/
def Obligations.AccumulatorAfterRead : Prop :=
  ∀ s t : State, exec .hostRead s = .next t → t.results ≠ s.results →
    ((∃ b, nextRx s = .byte b) → t.acc.count = 0 ∧ t.acc.err = false) ∧
    ((¬ ∃ b, nextRx s = .byte b) → t.acc = s.acc)

/-- 44 R189, 20 R47: RxRead returns the transport's answer and consumes it. -/
def Obligations.RxReadReturnsAnswer : Prop :=
  ∀ s : State, Live s → ∃ t, exec .rxRead s = .next t ∧ Returns s t (.rx (nextRx s)) ∧ RxTaken s t ∧
    SameAcc s t ∧ SameSocket s t

/-- 44 R190: TxWrite passes the whole sequence to the transport once and returns its answer. -/
def Obligations.TxWriteReturnsAnswer : Prop :=
  ∀ (l : Bytes) (s : State), Live s → ∃ t, exec (.txWrite l) s = .next t ∧ Returns s t (.tx (nextTx s)) ∧
    TxTaken l s t ∧ SameAcc s t ∧ SameSocket s t

/-! ## Whole-machine rules -/

/-- 44 R191: OPEN, CLOSE and WRITE neither read nor write the accumulator; of the host's operations only READ changes it.
Beside READ, the step that creates a socket and the model's own AccStep request (log 9) set it. -/
def Obligations.OnlyReadChangesAccumulator : Prop :=
  (∀ (i : Instr) (s t : State) (a : LineAcc),
    (∃ br, i = .hostOpen br) ∨ i = .hostClose ∨ (∃ id data, i = .hostWrite id data) → exec i s = .next t →
    t.acc = s.acc ∧ exec i { s with acc := a } = .next { t with acc := a }) ∧
  ∀ (s t : State), step s = .next t →
    (∀ r rest, s.program = r :: rest →
      r ≠ .hostRead ∧ (∀ b, r ≠ .accStep b) ∧ ∀ tr, r ≠ .hostNew tr) → t.acc = s.acc

/-- 00 R13, 20 R48, 44 R185 (log 13): a step holds at most one transport transaction. NEW, which changes the transport,
makes none. -/
def Obligations.OneTransactionPerStep : Prop :=
  ∀ s t : State, step s = .next t → (∀ tr rest, s.program ≠ .hostNew tr :: rest) →
    SameTransport s t ∨ RxTaken s t ∨ ∃ l, TxTaken l s t

/-- The spec's own inference in 30 R79 from R64-R67, R103: every line a step emits, but for a TxWrite asked for on its
own, ends in CR and holds only command letters, uppercase digits and CR. -/
def Obligations.EmittedBytesInAlphabet : Prop :=
  ∀ s t : State, step s = .next t → (∀ l rest, s.program ≠ .txWrite l :: rest) →
    ∃ recs, t.txLog = s.txLog ++ recs ∧
      ∀ x ∈ recs, x.line.getLast? = some 0x0D#8 ∧ ∀ b ∈ x.line, Emittable b

/-- 60 R207, 42 R140: while the socket exists every request but a DecodeLine of fewer than 5 bytes is answered by a next
state. The model's choices: a DecodeLine below 5 bytes is refused (log 10, DESIGN CHOICE), and one above MAX_LINE is
answered (log 11, DEDUCED). -/
def Obligations.StepAnswersWhileSocketExists : Prop :=
  ∀ s : State, Live s → (∀ l rest, s.program = .decodeLine l :: rest → 5 ≤ l.length) → ∃ t, step s = .next t

/-- 60 R216: when no operation runs the block holds its state. -/
def Obligations.IdleHoldsState : Prop := ∀ s : State, s.program = [] → step s = .next s

/-- 70 R232 ("After that no operation exists"), 60 R217: dropping the socket ends it and returns nothing; then no
operation of it exists but NEW. That the drop is a request that changes neither accumulator nor transport, and that
the operations then fault with noSocket, is the model's reading (log 12, DEDUCED). -/
def Obligations.DroppedSocketHasNoOperation : Prop :=
  (∀ (s : State) (rest : List Request), Live s → s.program = .drop :: rest → ∃ t, step s = .next t ∧
    t.socket = .dropped ∧ t.program = rest ∧ t.results = s.results ∧ SameAcc s t ∧ SameTransport s t) ∧
  ∀ (s : State) (b : Byte) (br : BitRate) (id : U32) (d : Bytes), s.socket = .dropped →
    exec (.accEnd b) s = .fault .noSocket ∧ exec (.accAppend b) s = .fault .noSocket ∧
    exec (.accOverflow b) s = .fault .noSocket ∧ exec (.accDrop b) s = .fault .noSocket ∧
    exec (.hostOpen br) s = .fault .noSocket ∧ exec .hostClose s = .fault .noSocket ∧
    exec (.hostWrite id d) s = .fault .noSocket ∧ exec .hostRead s = .fault .noSocket ∧
    exec .rxRead s = .fault .noSocket ∧ exec (.txWrite d) s = .fault .noSocket

/-- 00 R2: the step runs the operation the running request stands for, which is well formed. That the host's operations
are requests in the state is the model's choice (log 1, DESIGN CHOICE), and so is what the second clause rests on: how
withRequest places an operation, makes the socket exist and sets the accumulator (log 15, DESIGN CHOICE). -/
def Obligations.StepRunsFetchedOperation : Prop :=
  (∀ (s : State) (i : Instr), fetch s = .run i → i.wf = true ∧ step s = exec i s) ∧
  ∀ (s : State) (i : Instr), i.wf = true → step (withRequest s i) = exec i (withRequest s i)

/-! ## Invariants -/

/-- 10 R33, 70 R231: count and flag after reset, with MAX_LINE at least 22 (00 R6); and reset meets every invariant. That
the socket exists, no frame is returned and no OPEN runs at reset rests on the model's reset values (log 7, DESIGN
CHOICE). -/
def Obligations.ResetMeetsInvariants : Prop :=
  State.reset.acc.count = 0 ∧ State.reset.acc.err = false ∧ 22 ≤ State.reset.maxLine ∧ Live State.reset ∧
  AccInv State.reset ∧ WrittenBelowCount State.reset ∧ FramesCanonical State.reset ∧ OpenRuns State.reset

/-- The spec's own inferences in 10 R22, R23 ("Invariant"): the accumulator's invariant holds at reset and every step
keeps it, so it holds in every reachable state. -/
def Obligations.StepKeepsAccumulatorInvariant : Prop :=
  AccInv State.reset ∧ ∀ s t : State, AccInv s → step s = .next t → AccInv t

/-- 20 R41, R42 and the spec's own inference in 10 R24 (stale bytes "are never read"): every step keeps every byte of the
current line written, so that no line ever holds an unspecified byte. -/
def Obligations.StepKeepsLineWritten : Prop :=
  ∀ s t : State, WrittenBelowCount s → step s = .next t → WrittenBelowCount t

/-- 10 R28: every step keeps every returned frame canonical. -/
def Obligations.StepKeepsFramesCanonical : Prop :=
  ∀ s t : State, FramesCanonical s → step s = .next t → FramesCanonical t

/-- 44 R182, 20 R49: every step keeps a half-done OPEN the running request. The phase between OPEN's two steps is the
model's choice (log 13, DEDUCED). -/
def Obligations.StepKeepsOpenRunning : Prop :=
  ∀ s t : State, OpenRuns s → step s = .next t → OpenRuns t

/-- 00 R6: MAX_LINE is at least 22 and no step changes it. -/
def Obligations.MaxLineIsFixed : Prop :=
  ∀ s t : State, step s = .next t → t.maxLine = s.maxLine ∧ 22 ≤ t.maxLine

/-- 20 R41, R42 and the spec's own inference in 10 R24 ("not observable"), 10 R25: buffer bytes at or above the count are
never observed. Two states that differ in them alone step alike, to states that again differ in them alone, with the
same results and the same transmissions. -/
def Obligations.StaleBytesUnobservable : Prop :=
  ∀ s t : State, SameButStale s t →
    (∀ s', step s = .next s' → ∃ t', step t = .next t' ∧ SameButStale s' t') ∧
    (∀ f, step s = .fault f → step t = .fault f) ∧ ∀ r, step s = .refused r → step t = .refused r

/-! ## Encoding -/

/-- 30 R63-R67: every line the formatter can emit without loss is read back as the operation that made it, whatever bytes
follow it. Reading outbound lines is the model's own (log 16). -/
def Obligations.CommandLineRoundTrip : Prop :=
  ∀ (i : Instr) (bs rest : Bytes),
    (∃ br, i = .setup br) ∨ i = .openCmd ∨ i = .closeCmd ∨
      (∃ id data, i = .encodeT id data ∧ id.toNat ≤ 0xFFF) →
    encode i = some bs → decodeCommand (bs ++ rest) = .ok (i, rest)

/-- 30 R76, R68: an accumulator transition's byte, in a state that meets the transition's condition, and a decoder
operation's line are read back as that operation. -/
def Obligations.OpcodeMapsRoundTrip : Prop :=
  (∀ (b : Byte) (err : Bool) (count cap : Nat),
    (Instr.wf (.accEnd b) = true → encode (.accEnd b) = some [b] ∧ selectAcc err count cap b = .accEnd b) ∧
    (Instr.wf (.accAppend b) = true → count < cap →
      encode (.accAppend b) = some [b] ∧ selectAcc false count cap b = .accAppend b) ∧
    (Instr.wf (.accOverflow b) = true → cap ≤ count →
      encode (.accOverflow b) = some [b] ∧ selectAcc false count cap b = .accOverflow b) ∧
    (Instr.wf (.accDrop b) = true →
      encode (.accDrop b) = some [b] ∧ selectAcc true count cap b = .accDrop b)) ∧
  ∀ l : Bytes,
    (Instr.wf (.decodeT l) = true → encode (.decodeT l) = some l ∧ selectLine l = .ok (.decodeT l)) ∧
    (Instr.wf (.unsupportedCommand l) = true →
      encode (.unsupportedCommand l) = some l ∧ selectLine l = .ok (.unsupportedCommand l))

/-- A few bytes and lines written out: by the spec's opcode maps the two terminators (30 R61), 0x0A and `t` as data bytes
(30 R61, R76), and the lines `t1232DEAD` (95 DV1) and `T1230` (43 R161); and the outbound lines `t1232DEAD`, `S0`,
`O`, `C` with CR (95 E2, E10, E13, E14), which the spec emits and which decodeCommand, the model's choice (log 16,
DESIGN CHOICE), reads back. -/
def Obligations.SampleBytesDecode : Prop :=
  selectAcc false 0 32 0x0D#8 = .accEnd 0x0D#8 ∧ selectAcc true 32 32 0x07#8 = .accEnd 0x07#8 ∧
  selectAcc false 3 32 0x0A#8 = .accAppend 0x0A#8 ∧ selectAcc false 32 32 0x74#8 = .accOverflow 0x74#8 ∧
  selectAcc true 32 32 0x74#8 = .accDrop 0x74#8 ∧
  selectLine [0x74#8, 0x31#8, 0x32#8, 0x33#8, 0x32#8, 0x44#8, 0x45#8, 0x41#8, 0x44#8] =
    .ok (.decodeT [0x74#8, 0x31#8, 0x32#8, 0x33#8, 0x32#8, 0x44#8, 0x45#8, 0x41#8, 0x44#8]) ∧
  selectLine [0x54#8, 0x31#8, 0x32#8, 0x33#8, 0x30#8] = .ok (.unsupportedCommand [0x54#8, 0x31#8, 0x32#8, 0x33#8, 0x30#8]) ∧
  decodeCommand [0x74#8, 0x31#8, 0x32#8, 0x33#8, 0x32#8, 0x44#8, 0x45#8, 0x41#8, 0x44#8, 0x0D#8] =
    .ok (.encodeT 0x123#32 [0xDE#8, 0xAD#8], []) ∧
  decodeCommand [0x53#8, 0x30#8, 0x0D#8] = .ok (.setup .kbit10, []) ∧
  decodeCommand [0x4F#8, 0x0D#8] = .ok (.openCmd, []) ∧ decodeCommand [0x43#8, 0x0D#8] = .ok (.closeCmd, [])
end

