-- ==== Sys2Proof/Laws/State.lean ====
section
/-! SUPPORT. One lemma per field and update, so that no proof unfolds one. -/

namespace Sys2Proof.Machine

section
variable (s : State) (a : LineAcc) (r : Result) (t : Transport) (i : Nat) (v : Byte)

@[simp] theorem maxLine_mk (a : LineAcc) (n : Nat) (p : SocketPhase) (t : Transport) (d : Nat) (g : List Request)
    (r : List Result) (l : List TxRecord) : (State.mk a n p t d g r l).maxLine = n + 22 := rfl

@[simp] theorem retire_acc : (retire r s).acc = s.acc := rfl
@[simp] theorem retire_spare : (retire r s).spare = s.spare := rfl
@[simp] theorem retire_maxLine : (retire r s).maxLine = s.maxLine := rfl
@[simp] theorem retire_socket : (retire r s).socket = s.socket := rfl
@[simp] theorem retire_transport : (retire r s).transport = s.transport := rfl
@[simp] theorem retire_draws : (retire r s).draws = s.draws := rfl
@[simp] theorem retire_program : (retire r s).program = s.program.tail := rfl
@[simp] theorem retire_results : (retire r s).results = s.results ++ [r] := rfl
@[simp] theorem retire_txLog : (retire r s).txLog = s.txLog := rfl

@[simp] theorem newSocket_acc : (newSocket t s).acc = ⟨[], s.draws, 0, false⟩ := rfl
@[simp] theorem newSocket_spare : (newSocket t s).spare = s.spare := rfl
@[simp] theorem newSocket_maxLine : (newSocket t s).maxLine = s.maxLine := rfl
@[simp] theorem newSocket_socket : (newSocket t s).socket = .ready := rfl
@[simp] theorem newSocket_transport : (newSocket t s).transport = t := rfl
@[simp] theorem newSocket_draws : (newSocket t s).draws = s.draws + 1 := rfl
@[simp] theorem newSocket_program : (newSocket t s).program = s.program := rfl
@[simp] theorem newSocket_results : (newSocket t s).results = s.results := rfl
@[simp] theorem newSocket_txLog : (newSocket t s).txLog = s.txLog := rfl

@[simp] theorem dropSocket_acc : (dropSocket s).acc = s.acc := rfl
@[simp] theorem dropSocket_spare : (dropSocket s).spare = s.spare := rfl
@[simp] theorem dropSocket_maxLine : (dropSocket s).maxLine = s.maxLine := rfl
@[simp] theorem dropSocket_socket : (dropSocket s).socket = .dropped := rfl
@[simp] theorem dropSocket_transport : (dropSocket s).transport = s.transport := rfl
@[simp] theorem dropSocket_draws : (dropSocket s).draws = s.draws := rfl
@[simp] theorem dropSocket_program : (dropSocket s).program = s.program.tail := rfl
@[simp] theorem dropSocket_results : (dropSocket s).results = s.results := rfl
@[simp] theorem dropSocket_txLog : (dropSocket s).txLog = s.txLog := rfl

@[simp] theorem bufWrite_buf : (bufWrite i v a).buf = memStore a.buf i v := rfl
@[simp] theorem bufWrite_fill : (bufWrite i v a).fill = a.fill := rfl
@[simp] theorem bufWrite_count : (bufWrite i v a).count = a.count := rfl
@[simp] theorem bufWrite_err : (bufWrite i v a).err = a.err := rfl

end

/-- An operation of a socket that exists is not stopped. -/
theorem ifSocket_live {s : State} (h : Live s) (o : Host.Outcome State Fault Refusal) : ifSocket s o = o :=
  if_neg h

/-- What `ifSocket` lets through ran on a socket that exists. -/
theorem ifSocket_next {s t : State} {o : Host.Outcome State Fault Refusal} (h : ifSocket s o = .next t) :
    Live s ∧ o = .next t := by
  unfold ifSocket at h
  split at h
  · cases h
  · exact ⟨‹_›, h⟩

/-- A state that only returned a result meets the frame of the same name. -/
theorem onlyReturns_retire (s : State) (r : Result) : OnlyReturns s (retire r s) r := by
  simp [OnlyReturns, Returns, SameAcc, SameTransport, SameSocket]

end Sys2Proof.Machine
end

