-- ==== Sys2Proof/Laws/Memory.lean ====
section
/-! SUPPORT. The laws of the line buffer: a read after a write, and the canonical form every write keeps. -/

namespace Sys2Proof.Machine

theorem memFind_memStore (m : Memory) (i j : Nat) (v : Byte) :
    memFind (memStore m i v) j = if i = j then some v else memFind m j := by
  induction m with
  | nil => simp [memStore, memFind]
  | cons c m ih =>
    obtain ⟨a, b⟩ := c
    unfold memStore
    split
    · simp [memFind]
    · split
      · subst i; by_cases h : a = j <;> simp [memFind, h]
      · by_cases h : a = j
        · have : ¬ i = j := by omega
          simp [memFind, h, this]
        · simp [memFind, h, ih]

/-- A cell after a write is the written one or an old one. -/
theorem mem_memStore {m : Memory} {i : Nat} {v : Byte} {c : Host.Cell} (h : c ∈ memStore m i v) :
    c = (i, v) ∨ c ∈ m := by
  induction m with
  | nil => exact .inl (by simpa [memStore] using h)
  | cons d m ih =>
    unfold memStore at h
    split at h
    · simpa using h
    · split at h
      · rcases List.mem_cons.mp h with h | h
        · exact .inl h
        · exact .inr (List.mem_cons_of_mem _ h)
      · rcases List.mem_cons.mp h with h | h
        · exact .inr (h ▸ List.mem_cons_self)
        · exact (ih h).imp id (List.mem_cons_of_mem _)

/-- A write keeps the canonical form. -/
theorem memStore_wf {m : Memory} (h : Memory.wf m) (i : Nat) (v : Byte) : Memory.wf (memStore m i v) := by
  induction m with
  | nil => simp [memStore]
  | cons d m ih =>
    obtain ⟨hd, hm⟩ := List.pairwise_cons.mp h
    unfold memStore
    split
    · refine List.pairwise_cons.mpr ⟨fun c hc => ?_, h⟩
      rcases List.mem_cons.mp hc with rfl | hc
      · assumption
      · have := hd c hc; simp only at *; omega
    · split
      · exact List.pairwise_cons.mpr ⟨fun c hc => by subst i; exact hd c hc, hm⟩
      · refine List.pairwise_cons.mpr ⟨fun c hc => ?_, ih hm⟩
        rcases mem_memStore hc with rfl | hc
        · simp only; omega
        · exact hd c hc

/-- A write below a bound keeps every index below it. -/
theorem memStore_below {m : Memory} {n i : Nat} {v : Byte} (h : ∀ c ∈ m, c.1 < n) (hi : i < n) :
    ∀ c ∈ memStore m i v, c.1 < n := fun c hc => by
  rcases mem_memStore hc with rfl | hc
  · exact hi
  · exact h c hc

/-- Reading after a write: the written byte at its index, the old one elsewhere. -/
theorem bufRead_bufWrite (a : LineAcc) (i j : Nat) (v : Byte) :
    bufRead (bufWrite i v a) j = if i = j then v else bufRead a j := by
  unfold bufRead
  rw [bufWrite_buf, memFind_memStore]
  split <;> simp

/-- A buffer read depends on the cells and the fill alone. -/
@[simp] theorem bufRead_mk (a : LineAcc) (n : Nat) (e : Bool) (i : Nat) :
    bufRead { a with count := n, err := e } i = bufRead a i := rfl

@[simp] theorem bufLine_length (a : LineAcc) (n : Nat) : (bufLine a n).length = n := by simp [bufLine]

theorem memory_wf_reset : Memory.wf State.reset.acc.buf := List.Pairwise.nil

end Sys2Proof.Machine
end

