-- ==== Sys2Proof/Laws/Ops.lean ====
section
/-! SUPPORT. What each shared operation does, said once: the two transactions and the accumulator. -/

namespace Sys2Proof.Machine

/-- A receive transaction answers `nextRx` and changes the transport's answers and the draw count alone. -/
theorem rxTransact_eq (s : State) :
    rxTransact s = (nextRx s,
      { s with transport := ⟨s.transport.rx.tail, s.transport.tx⟩
               draws := s.draws + (if s.transport.rx = [] then 1 else 0) }) := by
  obtain ⟨acc, spare, socket, ⟨rx, tx⟩, draws, program, results, txLog⟩ := s
  cases rx <;> simp [rxTransact, nextRx]

/-- A transmit transaction answers `nextTx`, logs the line with that answer, and changes nothing else but the transport's
answers and the draw count. -/
theorem txTransact_eq (l : Bytes) (s : State) :
    txTransact l s = (nextTx s,
      { s with transport := ⟨s.transport.rx, s.transport.tx.tail⟩
               draws := s.draws + (if s.transport.tx = [] then 1 else 0)
               txLog := s.txLog ++ [⟨l, nextTx s⟩] }) := by
  obtain ⟨acc, spare, socket, ⟨rx, tx⟩, draws, program, results, txLog⟩ := s
  cases tx <;> simp [txTransact, nextTx]

/-- AccStep is one of the four transitions, under the condition of its rule (42 R140). -/
theorem accStep_cases (cap : Nat) (b : Byte) (a : LineAcc) :
    (isTerminator b = true ∧ accStep cap b a = accEnd a) ∨
    (isTerminator b = false ∧ a.err = false ∧ a.count < cap ∧ accStep cap b a = accAppend b a) ∨
    (isTerminator b = false ∧ a.err = false ∧ cap ≤ a.count ∧ accStep cap b a = accOverflow a) ∨
    (isTerminator b = false ∧ a.err = true ∧ accStep cap b a = accDrop a) := by
  cases h : isTerminator b <;> cases he : a.err
  · by_cases hc : a.count < cap
    · exact .inr (.inl ⟨rfl, rfl, hc, by simp [accStep, filling, h, he, hc]⟩)
    · exact .inr (.inr (.inl ⟨rfl, rfl, by omega, by simp [accStep, filling, h, he, hc]⟩))
  · exact .inr (.inr (.inr ⟨rfl, rfl, by simp [accStep, filling, h, he]⟩))
  · exact .inl ⟨rfl, by simp [accStep, h]⟩
  · exact .inl ⟨rfl, by simp [accStep, h]⟩

/-- AccDecode leaves the accumulator AccStep leaves (42 R146). -/
@[simp] theorem accDecode_acc (cap : Nat) (b : Byte) (a : LineAcc) : (accDecode cap b a).2 = (accStep cap b a).2 := by
  unfold accDecode
  split <;> simp_all

/-- AccDecode's output is AccStep's, with the line decoded (42 R146). -/
theorem accDecode_out (cap : Nat) (b : Byte) (a : LineAcc) :
    (accDecode cap b a).1 = match (accStep cap b a).1 with
      | .pending => .pending
      | .line l => .decoded (decodeLine l) := by
  unfold accDecode
  split <;> simp_all

/-- READ's pass over a consumed byte in one equation. -/
theorem readByte_acc (b : Byte) (s : State) : (readByte b s).acc = (accStep s.maxLine b s.acc).2 := by
  rw [← accDecode_acc]
  unfold readByte
  split <;> simp_all

/-- A byte's pass touches the accumulator, the requests and the results alone. -/
theorem readByte_frame (b : Byte) (s : State) :
    (readByte b s).spare = s.spare ∧ (readByte b s).socket = s.socket ∧ (readByte b s).transport = s.transport ∧
    (readByte b s).draws = s.draws ∧ (readByte b s).txLog = s.txLog := by
  unfold readByte
  split <;> simp

/-- A byte's pass returns nothing, or one `READ` result whose frame, if any, came from DecodeLine. -/
theorem readByte_results (b : Byte) (s : State) :
    ((readByte b s).results = s.results ∧ (readByte b s).program = s.program) ∨
    ∃ r, (readByte b s).results = s.results ++ [.read r] ∧ (readByte b s).program = s.program.tail ∧
      ∀ f, r = .frame f → ∃ l, decodeLine l = .frame f := by
  have hout := accDecode_out s.maxLine b s.acc
  unfold readByte
  split <;> rename_i h <;> simp only [h] at hout
  · simp
  · right
    refine ⟨.frame _, rfl, rfl, fun f hf => ?_⟩
    cases hf
    split at hout
    · cases hout
    · exact ⟨_, (by injection hout with h2; exact h2.symm)⟩
  · exact .inr ⟨.invalidData, rfl, rfl, by simp⟩
  · exact .inr ⟨.notReady, rfl, rfl, by simp⟩

end Sys2Proof.Machine
end

