-- ==== Sys2Proof/Laws/Codec.lean ====
section
/-! SUPPORT. The codec's and the formatter's small facts: digits are read back, are never a terminator, and lines have the
length and the bytes their format gives. -/

namespace Sys2Proof.Machine

/-- A digit the block emits is read back as its nibble (40 R107). -/
@[simp] theorem hexDigitToValue_valueToHexDigit (n : Nibble) : hexDigitToValue (valueToHexDigit n) = .ok n := by
  revert n; decide

/-- A digit is no terminator (30 R61, R79). -/
@[simp] theorem isTerminator_valueToHexDigit (n : Nibble) : isTerminator (valueToHexDigit n) = false := by
  revert n; decide

/-- A digit is uppercase (30 R74). -/
@[simp] theorem upperDigit_valueToHexDigit (n : Nibble) : upperDigit (valueToHexDigit n) = some n := by
  revert n; decide

theorem valueToHexDigit_mem (n : Nibble) : valueToHexDigit n ∈ hexAlphabet := by
  revert n; decide

@[simp] theorem bytesToHex_length (d : Bytes) : (bytesToHex d).length = 2 * d.length := by
  induction d with
  | nil => rfl
  | cons b d ih => simp [bytesToHex, byteToHex, ih]; omega

/-- Every byte of a data field is a digit of the alphabet (30 R79). -/
theorem mem_bytesToHex {d : Bytes} {x : Byte} (h : x ∈ bytesToHex d) : ∃ n, x = valueToHexDigit n := by
  induction d with
  | nil => simp [bytesToHex] at h
  | cons b d ih =>
    simp only [bytesToHex, byteToHex, List.cons_append, List.nil_append, List.mem_cons] at h
    rcases h with h | h | h
    · exact ⟨_, h⟩
    · exact ⟨_, h⟩
    · exact ih h

/-- The two digits of data byte `k` (40 R105). -/
theorem bytesToHex_getElem? {d : Bytes} {k : Nat} {b : Byte} (h : d[k]? = some b) :
    (bytesToHex d)[2 * k]? = some (valueToHexDigit ((b >>> 4).setWidth 4)) ∧
    (bytesToHex d)[2 * k + 1]? = some (valueToHexDigit (b.setWidth 4)) := by
  induction d generalizing k with
  | nil => simp at h
  | cons c d ih =>
    cases k with
    | zero => simp at h; simp [bytesToHex, byteToHex, h]
    | succ k =>
      have := ih (k := k) (by simpa using h)
      rw [show 2 * (k + 1) = 2 * k + 1 + 1 by omega]
      simpa [bytesToHex, byteToHex] using this

/-- What `encode_transmit` answers (41 R120). -/
theorem encodeTransmit_ok {id : U32} {data line : Bytes} (h : encodeTransmit id data = .ok line) :
    data.length ≤ 8 ∧ line = transmitLine id data := by
  unfold encodeTransmit dataCap at h
  split at h
  · cases h
  · exact ⟨by omega, by cases h; rfl⟩

@[simp] theorem transmitLine_length (id : U32) (data : Bytes) : (transmitLine id data).length = 6 + 2 * data.length := by
  simp [transmitLine, u32ToThreeHexDigits]; omega

/-- The data stage yields one byte for each index (43 R165). -/
theorem lineData_length {l : Bytes} {n : Nat} {d : Bytes} (h : lineData l n = .ok d) : d.length = n := by
  induction n generalizing d with
  | zero => cases h; rfl
  | succ n ih =>
    unfold lineData at h
    cases h1 : lineData l n with
    | invalidHexDigit => rw [h1] at h; cases h
    | ok d' =>
      cases h2 : lineDataByte l n with
      | invalidHexDigit => rw [h1, h2] at h; cases h
      | ok b => rw [h1, h2] at h; cases h; simp [ih h1]

end Sys2Proof.Machine
end

