-- ==== Sys2Proof/Laws/PerInstr.lean ====
section
/-! SUPPORT. One family of statements about the operations as syntax: a well-formed operation that has wire bytes has at
least one, so that no operation is read from nothing. -/

namespace Sys2Proof.Laws.Wire

/-- The wire bytes of a well-formed operation, where it has any, are not empty. -/
def Statement (i : Instr) : Prop := i.wf = true → ∀ bs, encode i = some bs → bs ≠ []

theorem accEnd (b : Byte) : Statement (.accEnd b) := fun _ _ h => by cases h; simp
theorem accAppend (b : Byte) : Statement (.accAppend b) := fun _ _ h => by cases h; simp
theorem accOverflow (b : Byte) : Statement (.accOverflow b) := fun _ _ h => by cases h; simp
theorem accDrop (b : Byte) : Statement (.accDrop b) := fun _ _ h => by cases h; simp
theorem decodeT (l : Bytes) : Statement (.decodeT l) := fun hw _ h => by
  cases h; rintro rfl; simp [Instr.wf, Machine.minLine] at hw
theorem unsupportedCommand (l : Bytes) : Statement (.unsupportedCommand l) := fun hw _ h => by
  cases h; rintro rfl; simp [Instr.wf, Machine.minLine] at hw
theorem encodeT (id : U32) (data : Bytes) : Statement (.encodeT id data) := fun _ _ h => by
  simp only [encode] at h
  split at h <;> cases h
  simp [Machine.transmitLine]
theorem setup (br : BitRate) : Statement (.setup br) := fun _ _ h => by cases h; simp [Machine.setupCommand]
theorem openCmd : Statement .openCmd := fun _ _ h => by cases h; simp [Machine.openCommand]
theorem closeCmd : Statement .closeCmd := fun _ _ h => by cases h; simp [Machine.closeCommand]
theorem hexDigitToValue (b : Byte) : Statement (.hexDigitToValue b) := fun _ _ h => by cases h
theorem twoHexDigitsToByte (p0 p1 : Byte) : Statement (.twoHexDigitsToByte p0 p1) := fun _ _ h => by cases h
theorem hexDigitsToU32 (p0 p1 p2 : Byte) : Statement (.hexDigitsToU32 p0 p1 p2) := fun _ _ h => by cases h
theorem valueToHexDigit (n : Nibble) : Statement (.valueToHexDigit n) := fun _ _ h => by cases h
theorem u32ToThreeHexDigits (v : U32) : Statement (.u32ToThreeHexDigits v) := fun _ _ h => by cases h
theorem bytesToHex (d : Bytes) : Statement (.bytesToHex d) := fun _ _ h => by cases h
theorem hostNew (t : Transport) : Statement (.hostNew t) := fun _ _ h => by cases h
theorem hostOpen (br : BitRate) : Statement (.hostOpen br) := fun _ _ h => by cases h
theorem hostClose : Statement .hostClose := fun _ _ h => by cases h
theorem hostWrite (id : U32) (data : Bytes) : Statement (.hostWrite id data) := fun _ _ h => by cases h
theorem hostRead : Statement .hostRead := fun _ _ h => by cases h
theorem rxRead : Statement .rxRead := fun _ _ h => by cases h
theorem txWrite (l : Bytes) : Statement (.txWrite l) := fun _ _ h => by cases h

end Sys2Proof.Laws.Wire
end

