-- ==== Sys2Proof/Laws/Step.lean ====
section
/-! SUPPORT. Everything an operation, and so a step, can do to each part of the state, said once: the invariants follow from
these lemmas without unfolding an operation again. -/

namespace Sys2Proof.Machine

/-- What a step may have done to the accumulator: nothing, one AccStep, or the creation of a new one. -/
def AccMove (s t : State) : Prop :=
  t.acc = s.acc ∨ (∃ b, t.acc = (accStep s.maxLine b s.acc).2) ∨ ∃ n, t.acc = ⟨[], n, 0, false⟩

/-- What a step may have done to the results: nothing, or one more, whose frame, if any, DecodeLine made. -/
def ResultMove (s t : State) : Prop :=
  t.results = s.results ∨ ∃ r, t.results = s.results ++ [r] ∧
    ∀ f, r = .read (.frame f) ∨ r = .decode (.frame f) → ∃ l, decodeLine l = .frame f

/-- A transition that ran was selected, on a socket that exists. -/
theorem runTransition_next {sel : Bool} {o : AccOut × LineAcc} {s t : State} (h : runTransition sel o s = .next t) :
    Live s ∧ sel = true ∧ t = retire (.acc o.1) { s with acc := o.2 } := by
  obtain ⟨hl, h⟩ := ifSocket_next h
  split at h
  · exact ⟨hl, ‹_›, by cases h; rfl⟩
  · cases h

/-- A step of READ: the transaction, then the pass over its byte, if it brought one. -/
theorem execHostRead_eq (s : State) :
    execHostRead s = ifSocket s (.next (match nextRx s with
      | .fail e => retire (.read (.transportFailure e)) (rxTransact s).2
      | .empty => retire (.read .notReady) (rxTransact s).2
      | .byte b => readByte b (rxTransact s).2)) := by
  unfold execHostRead
  rw [rxTransact_eq]
  rcases nextRx s with b | - | e <;> rfl

/-- What any operation does to the accumulator. -/
theorem exec_acc {i : Instr} {s t : State} (h : exec i s = .next t) : AccMove s t := by
  cases i with
  | accEnd b =>
    obtain ⟨-, hb, rfl⟩ := runTransition_next h
    exact .inr (.inl ⟨b, by simp [accStep, hb]⟩)
  | accAppend b =>
    obtain ⟨-, hb, rfl⟩ := runTransition_next h
    simp only [Bool.and_eq_true, Bool.not_eq_true', decide_eq_true_eq] at hb
    exact .inr (.inl ⟨b, by simp [accStep, hb]⟩)
  | accOverflow b =>
    obtain ⟨-, hb, rfl⟩ := runTransition_next h
    simp only [Bool.and_eq_true, Bool.not_eq_true', decide_eq_true_eq] at hb
    exact .inr (.inl ⟨b, by simp [accStep, hb, Nat.not_lt.mpr hb.2]⟩)
  | accDrop b =>
    obtain ⟨-, hb, rfl⟩ := runTransition_next h
    simp only [Bool.and_eq_true, Bool.not_eq_true', errored] at hb
    exact .inr (.inl ⟨b, by simp [accStep, filling, hb]⟩)
  | decodeT l =>
    simp only [exec, execDecodeT] at h
    split at h <;> cases h
    exact .inl rfl
  | unsupportedCommand l =>
    simp only [exec, execUnsupportedCommand] at h
    split at h <;> cases h
    exact .inl rfl
  | hostNew t' => cases h; exact .inr (.inr ⟨_, rfl⟩)
  | hostOpen br =>
    obtain ⟨-, h⟩ := ifSocket_next h
    cases h
    refine .inl ?_
    split
    · unfold openSecond; rw [txTransact_eq]; cases nextTx s <;> rfl
    · unfold openFirst; rw [txTransact_eq]; cases nextTx s <;> rfl
  | hostClose =>
    obtain ⟨-, h⟩ := ifSocket_next h
    cases h
    rw [txTransact_eq]
    cases nextTx s <;> exact .inl rfl
  | hostWrite id data =>
    obtain ⟨-, h⟩ := ifSocket_next h
    cases h
    refine .inl ?_
    cases encodeTransmit id data with
    | invalidLength => rfl
    | ok l => simp only [txTransact_eq]; cases nextTx s <;> rfl
  | hostRead =>
    rw [exec, execHostRead_eq] at h
    obtain ⟨-, h⟩ := ifSocket_next h
    cases h
    rw [rxTransact_eq]
    cases nextRx s with
    | byte b => exact .inr (.inl ⟨b, readByte_acc b _⟩)
    | empty => exact .inl rfl
    | fail e => exact .inl rfl
  | rxRead =>
    obtain ⟨-, h⟩ := ifSocket_next h
    cases h
    rw [rxTransact_eq]
    exact .inl rfl
  | txWrite l =>
    obtain ⟨-, h⟩ := ifSocket_next h
    cases h
    rw [txTransact_eq]
    exact .inl rfl
  | encodeT _ _ | setup _ | openCmd | closeCmd | hexDigitToValue _ | twoHexDigitsToByte _ _ | hexDigitsToU32 _ _ _
  | valueToHexDigit _ | u32ToThreeHexDigits _ | bytesToHex _ => cases h; exact .inl rfl

/-- What any operation does to the results, and that MAX_LINE is fixed. -/
theorem exec_results {i : Instr} {s t : State} (h : exec i s = .next t) : ResultMove s t ∧ t.spare = s.spare := by
  have one (r : Result) (hr : ∀ f, r ≠ .read (.frame f) ∧ r ≠ .decode (.frame f)) {t : State}
      (ht : t.results = s.results ++ [r]) : ResultMove s t :=
    .inr ⟨r, ht, fun f hf => (hf.elim (hr f).1 (hr f).2).elim⟩
  cases i with
  | accEnd b => obtain ⟨-, -, rfl⟩ := runTransition_next h; exact ⟨one _ (by simp) rfl, rfl⟩
  | accAppend b => obtain ⟨-, -, rfl⟩ := runTransition_next h; exact ⟨one _ (by simp) rfl, rfl⟩
  | accOverflow b => obtain ⟨-, -, rfl⟩ := runTransition_next h; exact ⟨one _ (by simp) rfl, rfl⟩
  | accDrop b => obtain ⟨-, -, rfl⟩ := runTransition_next h; exact ⟨one _ (by simp) rfl, rfl⟩
  | decodeT l =>
    simp only [exec, execDecodeT] at h
    split at h <;> cases h
    exact ⟨.inr ⟨_, rfl, fun f hf => ⟨l, by simpa using hf⟩⟩, rfl⟩
  | unsupportedCommand l =>
    simp only [exec, execUnsupportedCommand] at h
    split at h <;> cases h
    exact ⟨one _ (by simp) rfl, rfl⟩
  | hostNew t' => cases h; exact ⟨one _ (by simp) rfl, rfl⟩
  | hostOpen br =>
    obtain ⟨-, h⟩ := ifSocket_next h
    cases h
    split
    · unfold openSecond; rw [txTransact_eq]
      cases nextTx s <;> exact ⟨one _ (by simp) rfl, rfl⟩
    · unfold openFirst; rw [txTransact_eq]
      cases nextTx s with
      | written n => exact ⟨.inl rfl, rfl⟩
      | fail e => exact ⟨one _ (by simp) rfl, rfl⟩
  | hostClose =>
    obtain ⟨-, h⟩ := ifSocket_next h
    cases h
    rw [txTransact_eq]
    cases nextTx s <;> exact ⟨one _ (by simp) rfl, rfl⟩
  | hostWrite id data =>
    obtain ⟨-, h⟩ := ifSocket_next h
    cases h
    cases encodeTransmit id data with
    | invalidLength => exact ⟨one _ (by simp) rfl, rfl⟩
    | ok l => simp only [txTransact_eq]; cases nextTx s <;> exact ⟨one _ (by simp) rfl, rfl⟩
  | hostRead =>
    rw [exec, execHostRead_eq] at h
    obtain ⟨-, h⟩ := ifSocket_next h
    cases h
    rw [rxTransact_eq]
    cases nextRx s with
    | byte b =>
      refine ⟨?_, (readByte_frame b _).1⟩
      rcases readByte_results b _ with ⟨hr, -⟩ | ⟨r, hr, -, hf⟩
      · exact .inl hr
      · exact .inr ⟨_, hr, fun f h => hf f (by simpa using h)⟩
    | empty => exact ⟨one _ (by simp) rfl, rfl⟩
    | fail e => exact ⟨one _ (by simp) rfl, rfl⟩
  | rxRead =>
    obtain ⟨-, h⟩ := ifSocket_next h
    cases h
    rw [rxTransact_eq]
    exact ⟨one _ (by simp) rfl, rfl⟩
  | txWrite l =>
    obtain ⟨-, h⟩ := ifSocket_next h
    cases h
    rw [txTransact_eq]
    exact ⟨one _ (by simp) rfl, rfl⟩
  | encodeT _ _ | setup _ | openCmd | closeCmd | hexDigitToValue _ | twoHexDigitsToByte _ _ | hexDigitsToU32 _ _ _
  | valueToHexDigit _ | u32ToThreeHexDigits _ | bytesToHex _ => cases h; exact ⟨one _ (by simp) rfl, rfl⟩

/-- A step that answers a next state was idle, a drop, or an operation. -/
theorem step_cases {s t : State} (h : step s = .next t) :
    (s.program = [] ∧ t = s) ∨ (Live s ∧ t = dropSocket s) ∨ ∃ i, fetch s = .run i ∧ exec i s = .next t := by
  unfold step at h
  split at h <;> rename_i hf
  · refine .inl ⟨?_, by cases h; rfl⟩
    unfold fetch at hf
    split at hf
    · assumption
    · rename_i r _ _
      cases r with
      | decodeLine l => simp only [select] at hf; cases hl : selectLine l <;> simp [hl, ofDecoded] at hf
      | _ => simp [select] at hf
  · obtain ⟨hl, h⟩ := ifSocket_next h
    exact .inr (.inl ⟨hl, by cases h; rfl⟩)
  · exact .inr (.inr ⟨_, hf, h⟩)
  · cases h

/-- What any step does to the accumulator. -/
theorem step_acc {s t : State} (h : step s = .next t) : AccMove s t := by
  rcases step_cases h with ⟨-, rfl⟩ | ⟨-, rfl⟩ | ⟨i, -, h⟩
  · exact .inl rfl
  · exact .inl rfl
  · exact exec_acc h

/-- What any step does to the results, and that MAX_LINE is fixed. -/
theorem step_results {s t : State} (h : step s = .next t) : ResultMove s t ∧ t.spare = s.spare := by
  rcases step_cases h with ⟨-, rfl⟩ | ⟨-, rfl⟩ | ⟨i, -, h⟩
  · exact ⟨.inl rfl, rfl⟩
  · exact ⟨.inl rfl, rfl⟩
  · exact exec_results h

end Sys2Proof.Machine
end

