-- ==== Sys2Proof/Laws/Run.lean ====
section
/-! SUPPORT. Many steps and many bytes: how runs and feeds compose. -/

namespace Sys2Proof.Machine

/-- `runSteps` is the host's run of this machine. -/
theorem runSteps_eq_host (k : Nat) (s : State) : Host.Core.run Sys2Proof.core k s = runSteps k s := by
  induction k generalizing s with
  | zero => rfl
  | succ k ih =>
    have hs : Sys2Proof.core.step s = step s := rfl
    simp only [Host.Core.run, runSteps]
    rw [hs]
    cases step s with
    | next t => exact ih t
    | fault f => rfl
    | refused r => rfl

@[simp] theorem runSteps_zero (s : State) : runSteps 0 s = .next s := rfl

theorem runSteps_succ {k : Nat} {s t : State} (h : step s = .next t) : runSteps (k + 1) s = runSteps k t := by
  simp [runSteps, h]

/-- A run of `k + j` steps is a run of `j` steps from where the first `k` end. -/
theorem runSteps_add {k : Nat} {s t : State} (h : runSteps k s = .next t) (j : Nat) :
    runSteps (k + j) s = runSteps j t := by
  induction k generalizing s with
  | zero => cases h; simp
  | succ k ih =>
    rw [Nat.add_right_comm]
    cases hs : step s with
    | next u => rw [runSteps_succ hs] at h ⊢; exact ih h
    | fault f => simp [runSteps, hs] at h
    | refused r => simp [runSteps, hs] at h

/-- A READ that is the running request runs. -/
theorem step_hostRead {s : State} {more : List Request} (h : s.program = .hostRead :: more) :
    step s = exec .hostRead s := by
  simp [step, fetch, h, select]

theorem feedDecode_append (cap : Nat) (bs cs : Bytes) (a : LineAcc) :
    feedDecode cap (bs ++ cs) a =
      ((feedDecode cap bs a).1 ++ (feedDecode cap cs (feedDecode cap bs a).2).1,
        (feedDecode cap cs (feedDecode cap bs a).2).2) := by
  induction bs generalizing a with
  | nil => simp [feedDecode]
  | cons b bs ih => simp [feedDecode, ih]

@[simp] theorem feedDecode_length (cap : Nat) (bs : Bytes) (a : LineAcc) :
    (feedDecode cap bs a).1.length = bs.length := by
  induction bs generalizing a with
  | nil => rfl
  | cons b bs ih => simp [feedDecode, ih]

/-- AccDecode leaves what AccStep leaves, over any number of bytes. -/
theorem feedDecode_acc (cap : Nat) (bs : Bytes) (a : LineAcc) :
    (feedDecode cap bs a).2 = (feedStep cap bs a).2 := by
  induction bs generalizing a with
  | nil => rfl
  | cons b bs ih => simp [feedDecode, feedStep, ih]

end Sys2Proof.Machine
end

