-- ==== Sys2Proof/Tests/Slice0.lean ====
section
/-! SUPPORT. The model's own tests: the checks of WellFormed, the opcode maps on bytes written out from the spec, one or two
steps of each operation against the vectors of spec/95_test_vectors.md, and a witness for the hypotheses of every statement. -/

namespace Sys2Proof.Tests

open Sys2Proof Sys2Proof.Machine

/-! ## Helpers -/

/-- A socket at the reference configuration `MAX_LINE = 32` (92 D1) with an accumulator and a transport of the test's. -/
def demo (m : Memory) (count : Nat) (err : Bool) (rx : List RxResp) (tx : List TxResp) : State where
  acc := ⟨m, 0, count, err⟩
  spare := 10
  socket := .ready
  transport := ⟨rx, tx⟩
  draws := 1
  program := []
  results := []
  txLog := []

/-- The cells of a line stored from index `i` on. -/
def cells : Nat → Bytes → Memory
  | _, [] => []
  | i, b :: bs => (i, b) :: cells (i + 1) bs

/-- An idle socket. -/
def demo0 : State := demo [] 0 false [] []

/-- A socket whose line so far is `l`. -/
def demoLine (l : Bytes) : State := demo (cells 0 l) l.length false [] []

/-- The results returned, where the outcome is a next state. -/
def got : Host.Outcome State Fault Refusal → Option (List Result)
  | .next t => some t.results
  | _ => none

/-- Count, flag and cells, where the outcome is a next state. -/
def accOf : Host.Outcome State Fault Refusal → Option (Nat × Bool × Memory)
  | .next t => some (t.acc.count, t.acc.err, t.acc.buf)
  | _ => none

/-- The lines passed to TxWrite, where the outcome is a next state. -/
def sent : Host.Outcome State Fault Refusal → Option (List Bytes)
  | .next t => some (t.txLog.map (·.line))
  | _ => none

/-- `"t1232DEAD"` (95 W1: 74 31 32 33 32 44 45 41 44). -/
def lineDead : Bytes := [0x74, 0x31, 0x32, 0x33, 0x32, 0x44, 0x45, 0x41, 0x44]
/-- The frame of `"t1232DEAD"` (95 W2). -/
def frameDead : CanFrame := ⟨0x123, 2, #v[0xDE, 0xAD, 0, 0, 0, 0, 0, 0]⟩
/-- `"T1232DEAD"` (95 DV7). -/
def lineExt : Bytes := [0x54, 0x31, 0x32, 0x33, 0x32, 0x44, 0x45, 0x41, 0x44]
/-- `"tZZZ1AA"` (95 W5). -/
def lineZzz : Bytes := [0x74, 0x5A, 0x5A, 0x5A, 0x31, 0x41, 0x41]
/-- `"t7FF0"` (95 S15). -/
def line7ff : Bytes := [0x74, 0x37, 0x46, 0x46, 0x30]
/-- `n` times `'x'`. -/
def xs (n : Nat) : Bytes := List.replicate n 0x78

/-! ## WellFormed: an ill-formed term for each check -/

theorem test_wf_end_data_byte : Instr.wf (.accEnd 0x74) = false := by decide
theorem test_wf_append_terminator : Instr.wf (.accAppend 0x0D) = false := by decide
theorem test_wf_overflow_terminator : Instr.wf (.accOverflow 0x07) = false := by decide
theorem test_wf_drop_terminator : Instr.wf (.accDrop 0x0D) = false := by decide
theorem test_wf_decode_short : Instr.wf (.decodeT [0x74, 0x31, 0x32, 0x33]) = false := by decide
theorem test_wf_decode_other_letter : Instr.wf (.decodeT lineExt) = false := by decide
theorem test_wf_unsupported_short : Instr.wf (.unsupportedCommand [0x54, 0x31, 0x32, 0x33]) = false := by decide
theorem test_wf_unsupported_letter_t : Instr.wf (.unsupportedCommand lineDead) = false := by decide
theorem test_wf_accepts :
    Instr.wf (.accEnd 0x07) = true ∧ Instr.wf (.accAppend 0x0A) = true ∧ Instr.wf (.decodeT line7ff) = true ∧
    Instr.wf (.unsupportedCommand lineExt) = true := by decide

/-! ## Decoding: bytes and lines written out from 30 R61-R68, R76 -/

theorem test_decode_cr_ends_in_any_state :
    selectAcc false 0 32 0x0D = .accEnd 0x0D ∧ selectAcc true 32 32 0x0D = .accEnd 0x0D := by decide
theorem test_decode_bel_ends : selectAcc false 9 32 0x07 = .accEnd 0x07 := by decide
theorem test_decode_append_with_room :
    selectAcc false 31 32 0x78 = .accAppend 0x78 ∧ selectAcc false 3 32 0x0A = .accAppend 0x0A := by decide
theorem test_decode_overflow_when_full : selectAcc false 32 32 0x78 = .accOverflow 0x78 := by decide
theorem test_decode_drop_when_errored : selectAcc true 32 32 0x74 = .accDrop 0x74 := by decide
theorem test_decode_line_t : selectLine line7ff = .ok (.decodeT line7ff) := rfl
theorem test_decode_line_other :
    selectLine lineExt = .ok (.unsupportedCommand lineExt) ∧
    selectLine [0x0A, 0x74, 0x30, 0x30, 0x31] = .ok (.unsupportedCommand [0x0A, 0x74, 0x30, 0x30, 0x31]) := ⟨rfl, rfl⟩
theorem test_decode_line_short : selectLine [0x74, 0x31, 0x32, 0x33] = .error .shortLine := rfl
/-- 95 E2: `t1232DEAD\r`. -/
theorem test_decode_encode_t :
    decodeCommand [0x74, 0x31, 0x32, 0x33, 0x32, 0x44, 0x45, 0x41, 0x44, 0x0D] =
      .ok (.encodeT 0x123 [0xDE, 0xAD], []) := rfl
/-- 95 E10, E11: `S0\r`, `S8\r`. -/
theorem test_decode_setup :
    decodeCommand [0x53, 0x30, 0x0D] = .ok (.setup .kbit10, []) ∧
    decodeCommand [0x53, 0x38, 0x0D, 0x4F] = .ok (.setup .mbit1, [0x4F]) := ⟨rfl, rfl⟩
/-- 95 E13, E14: `O\r`, `C\r`. -/
theorem test_decode_open_close :
    decodeCommand [0x4F, 0x0D] = .ok (.openCmd, []) ∧ decodeCommand [0x43, 0x0D] = .ok (.closeCmd, []) := ⟨rfl, rfl⟩
theorem test_decode_refuses_by_name :
    decodeCommand [0x54, 0x0D] = .error .unknownCommand ∧ decodeCommand [0x53, 0x39, 0x0D] = .error .badRate ∧
    decodeCommand [0x4F, 0x07] = .error .badTerminator ∧ decodeCommand [0x4F] = .error .truncated ∧
    decodeCommand [0x74, 0x31, 0x32, 0x61, 0x30, 0x0D] = .error .badIdDigit ∧
    decodeCommand [0x74, 0x31, 0x32, 0x33, 0x39, 0x0D] = .error .badDlcDigit ∧
    decodeCommand [0x74, 0x31, 0x32, 0x33, 0x31, 0x61, 0x30, 0x0D] = .error .badDataDigit := ⟨rfl, rfl, rfl, rfl, rfl, rfl, rfl⟩
/-- The opcode table's words (byte 0 alone, 30 R63-R68, R76). -/
theorem test_decode_table_words :
    decodeTableWord 8 0x0D = some (.accEnd 0x0D) ∧ decodeTableWord 8 0x07 = some (.accEnd 0x07) ∧
    decodeTableWord 8 0x00 = some (.accAppend 0x00) ∧ decodeTableWord 8 0x53 = some (.setup .kbit10) ∧
    decodeTableWord 8 0x4F = some .openCmd ∧ decodeTableWord 8 0x43 = some .closeCmd ∧
    decodeTableWord 8 0x74 = some (.decodeT [0x74, 0x30, 0x30, 0x30, 0x30]) := by decide
/-- The operations without a bit encoding (30 R77) are read from the host's request. -/
theorem test_select_requests :
    select demo0 (.hostOpen .kbit500) = .run (.hostOpen .kbit500) ∧ select demo0 .hostRead = .run .hostRead ∧
    select demo0 (.hexDigitToValue 0x41) = .run (.hexDigitToValue 0x41) ∧
    select demo0 (.txWrite [0x4F, 0x0D]) = .run (.txWrite [0x4F, 0x0D]) ∧
    select demo0 (.accStep 0x74) = .run (.accAppend 0x74) ∧
    select demo0 (.decodeLine lineDead) = .run (.decodeT lineDead) := by decide

/-! ## Hex codec: 95 §2.1 -/

/-- H1, H2, H6, H7, H10, H11. -/
theorem test_hex_digit_values :
    got (exec (.hexDigitToValue 0x30) demo0) = some [.nibble (.ok 0)] ∧
    got (exec (.hexDigitToValue 0x39) demo0) = some [.nibble (.ok 9)] ∧
    got (exec (.hexDigitToValue 0x41) demo0) = some [.nibble (.ok 10)] ∧
    got (exec (.hexDigitToValue 0x46) demo0) = some [.nibble (.ok 15)] ∧
    got (exec (.hexDigitToValue 0x61) demo0) = some [.nibble (.ok 10)] ∧
    got (exec (.hexDigitToValue 0x66) demo0) = some [.nibble (.ok 15)] := by decide
/-- H3-H5, H8, H9, H12-H14: `/ : @ G` grave `g`, 0x00, 0xFF. -/
theorem test_hex_digit_invalid :
    ∀ b ∈ ([0x2F, 0x3A, 0x40, 0x47, 0x60, 0x67, 0x00, 0xFF] : Bytes), hexDigitToValue b = .invalidHexDigit := by decide
/-- H16, H17. -/
theorem test_two_digits :
    got (exec (.twoHexDigitsToByte 0x66 0x46) demo0) = some [.byte (.ok 0xFF)] ∧
    got (exec (.twoHexDigitsToByte 0x44 0x45) demo0) = some [.byte (.ok 0xDE)] := by decide
/-- H18, H19. -/
theorem test_two_digits_invalid :
    twoHexDigitsToByte 0x30 0x47 = .invalidHexDigit ∧ twoHexDigitsToByte 0x47 0x30 = .invalidHexDigit := by decide
/-- H21, H22. -/
theorem test_three_digits :
    got (exec (.hexDigitsToU32 0x66 0x66 0x66) demo0) = some [.u32 (.ok 0xFFF)] ∧
    got (exec (.hexDigitsToU32 0x38 0x30 0x30) demo0) = some [.u32 (.ok 0x800)] := by decide
/-- H23. -/
theorem test_three_digits_invalid : hexDigitsToU32 0x31 0x32 0x47 = .invalidHexDigit := by decide
/-- H24-H27. -/
theorem test_nibble_digits :
    got (exec (.valueToHexDigit 9) demo0) = some [.digit 0x39] ∧
    got (exec (.valueToHexDigit 10) demo0) = some [.digit 0x41] ∧
    valueToHexDigit 0 = 0x30 ∧ valueToHexDigit 15 = 0x46 := by decide
/-- H28, H29, H31. -/
theorem test_u32_digits :
    got (exec (.u32ToThreeHexDigits 0x1234) demo0) = some [.bytes [0x32, 0x33, 0x34]] ∧
    u32ToThreeHexDigits 0x123 = [0x31, 0x32, 0x33] ∧ u32ToThreeHexDigits 0x1000 = [0x30, 0x30, 0x30] := by decide
/-- H32, H33. -/
theorem test_bytes_to_hex :
    got (exec (.bytesToHex [0x0A, 0xFF, 0x00]) demo0) = some [.bytes [0x30, 0x41, 0x46, 0x46, 0x30, 0x30]] ∧
    bytesToHex [] = [] := by decide

/-! ## Frame formatter: 95 §2.2 -/

/-- E3: the identifier is truncated to its low 12 bits. -/
theorem test_encode_truncates_id :
    got (exec (.encodeT 0x1234 [0x01]) demo0) =
      some [.encode (.ok [0x74, 0x32, 0x33, 0x34, 0x31, 0x30, 0x31, 0x0D])] := by decide
/-- E9. -/
theorem test_encode_nine_bytes :
    got (exec (.encodeT 0 [0, 1, 2, 3, 4, 5, 6, 7, 8]) demo0) = some [.encode .invalidLength] := by decide
/-- E10, E11. -/
theorem test_setup :
    got (exec (.setup .kbit10) demo0) = some [.bytes [0x53, 0x30, 0x0D]] ∧
    got (exec (.setup .mbit1) demo0) = some [.bytes [0x53, 0x38, 0x0D]] := by decide
/-- E13. -/
theorem test_open_cmd : got (exec .openCmd demo0) = some [.bytes [0x4F, 0x0D]] := by decide
/-- E14. -/
theorem test_close_cmd : got (exec .closeCmd demo0) = some [.bytes [0x43, 0x0D]] := by decide

/-! ## Line accumulator: 95 §2.3 -/

/-- A5: a five-byte line is handed over and the state is fresh. -/
theorem test_end_five_bytes :
    got (exec (.accEnd 0x0D) (demoLine [0x74, 0x31, 0x32, 0x33, 0x30])) =
      some [.acc (.line [0x74, 0x31, 0x32, 0x33, 0x30])] ∧
    (accOf (exec (.accEnd 0x0D) (demoLine [0x74, 0x31, 0x32, 0x33, 0x30]))).map (fun p => (p.1, p.2.1)) =
      some (0, false) := by decide
/-- A4, A10: a short line and an overflowed one are absorbed. -/
theorem test_end_absorbs :
    got (exec (.accEnd 0x0D) (demoLine [0x74, 0x31, 0x32, 0x33])) = some [.acc .pending] ∧
    accOf (exec (.accEnd 0x07) (demo [] 32 true [] [])) = some (0, false, []) := by decide
/-- A1, A14: stored whatever its value. -/
theorem test_append_stores :
    accOf (exec (.accAppend 0x74) demo0) = some (1, false, [(0, 0x74)]) ∧
    accOf (exec (.accAppend 0x00) (demoLine [0x74, 0x31])) =
      some (3, false, [(0, 0x74), (1, 0x31), (2, 0x00)]) := by decide
/-- A7: the line is full, not overflowed. -/
theorem test_append_last_place :
    accOf (exec (.accAppend 0x78) (demo [] 31 false [] [])) = some (32, false, [(31, 0x78)]) := by decide
/-- A8: the byte is dropped and the count stays. -/
theorem test_overflow :
    accOf (exec (.accOverflow 0x78) (demo [(31, 0x78)] 32 false [] [])) = some (32, true, [(31, 0x78)]) := by decide
/-- A9. -/
theorem test_drop :
    accOf (exec (.accDrop 0x74) (demo [(31, 0x78)] 32 true [] [])) = some (32, true, [(31, 0x78)]) := by decide

/-! ## Frame parser: 95 §2.4 -/

/-- DV1. -/
theorem test_decode_frame : got (exec (.decodeT lineDead) demo0) = some [.decode (.frame frameDead)] := by decide
/-- DV2-DV5, DV9-DV21: lower and mixed case, identifiers above 11 bits, each cause of MalformedFrame, trailing bytes. -/
theorem test_decode_line_results :
    decodeLine [0x74, 0x31, 0x32, 0x33, 0x32, 0x64, 0x65, 0x61, 0x64] = .frame frameDead ∧
    decodeLine [0x74, 0x38, 0x30, 0x30, 0x30] = .frame ⟨0x800, 0, #v[0, 0, 0, 0, 0, 0, 0, 0]⟩ ∧
    decodeLine lineZzz = .malformedFrame ∧
    decodeLine [0x74, 0x31, 0x32, 0x33, 0x39, 0x30] = .malformedFrame ∧
    decodeLine [0x74, 0x31, 0x32, 0x33, 0x2F] = .malformedFrame ∧
    decodeLine [0x74, 0x31, 0x32, 0x33, 0x32, 0x44, 0x45, 0x41] = .malformedFrame ∧
    decodeLine [0x74, 0x31, 0x32, 0x33, 0x32, 0x44, 0x45, 0x58, 0x44] = .malformedFrame ∧
    decodeLine (lineDead ++ [0x42, 0x45, 0x45, 0x46]) = .frame frameDead := by decide
/-- DV7. -/
theorem test_decode_unsupported :
    got (exec (.unsupportedCommand lineExt) demo0) = some [.decode .unsupportedCommand] := by decide

/-! ## Host operations and transactions: 95 §2.5 -/

/-- 70 R230. -/
theorem test_new :
    accOf (exec (.hostNew ⟨[.byte 0x74], []⟩) (demo [(31, 0x78)] 32 true [] [])) = some (0, false, []) := by decide
/-- S1, first transaction: the setup line goes out and OPEN goes on. -/
theorem test_open_first :
    sent (exec (.hostOpen .kbit10) (demo [] 0 false [] [.written 3, .written 2])) = some [[0x53, 0x30, 0x0D]] ∧
    got (exec (.hostOpen .kbit10) (demo [] 0 false [] [.written 3, .written 2])) = some [] := by decide
/-- S3, S4 in their second transaction. -/
theorem test_open_second :
    got (exec (.hostOpen .mbit1) { demo [] 0 false [] [.fail ⟨7⟩] with socket := .setupSent }) =
      some [.ctl (.transportFailure ⟨7⟩)] ∧
    got (exec (.hostOpen .mbit1) { demo [] 0 false [] [.written 2] with socket := .setupSent }) =
      some [.ctl .ok] := by decide
/-- S5, S6. -/
theorem test_close :
    sent (exec .hostClose (demo [] 0 false [] [.written 2])) = some [[0x43, 0x0D]] ∧
    got (exec .hostClose (demo [] 0 false [] [.fail ⟨7⟩])) = some [.ctl (.transportFailure ⟨7⟩)] := by decide
/-- S8: a partial count is returned as it is. -/
theorem test_write_partial :
    got (exec (.hostWrite 0x123 [0xDE, 0xAD]) (demo [] 0 false [] [.written 4])) = some [.write (.written 4)] ∧
    sent (exec (.hostWrite 0x123 [0xDE, 0xAD]) (demo [] 0 false [] [.written 4])) =
      some [lineDead ++ [0x0D]] := by decide
/-- S10. -/
theorem test_write_nine_bytes :
    got (exec (.hostWrite 0 [0, 1, 2, 3, 4, 5, 6, 7, 8]) demo0) = some [.write .invalidLength] ∧
    sent (exec (.hostWrite 0 [0, 1, 2, 3, 4, 5, 6, 7, 8]) demo0) = some [] := by decide
/-- S11, S14: no data, and a failure that keeps the partial line. -/
theorem test_read_no_byte :
    got (exec .hostRead (demo [] 0 false [.empty] [])) = some [.read .notReady] ∧
    got (exec .hostRead (demo (cells 0 [0x74, 0x31, 0x32]) 3 false [.fail ⟨1⟩] [])) =
      some [.read (.transportFailure ⟨1⟩)] ∧
    (accOf (exec .hostRead (demo (cells 0 [0x74, 0x31, 0x32]) 3 false [.fail ⟨1⟩] []))).map (·.1) = some 3 := by decide
/-- W2, W5, S17 at their terminator; a data byte returns nothing. -/
theorem test_read_terminator :
    got (exec .hostRead (demo (cells 0 lineDead) 9 false [.byte 0x0D] [])) = some [.read (.frame frameDead)] ∧
    got (exec .hostRead (demo (cells 0 lineZzz) 7 false [.byte 0x0D] [])) = some [.read .invalidData] ∧
    got (exec .hostRead (demo (cells 0 lineExt) 9 false [.byte 0x07] [])) = some [.read .notReady] ∧
    got (exec .hostRead (demo [] 0 false [.byte 0x74] [])) = some [] := by decide
/-- 44 R189. -/
theorem test_rx_read : got (exec .rxRead (demo [] 0 false [.byte 0x41] [])) = some [.rx (.byte 0x41)] := by decide
/-- 44 R190. -/
theorem test_tx_write :
    got (exec (.txWrite [0x4F, 0x0D]) (demo [] 0 false [] [.written 1])) = some [.tx (.written 1)] ∧
    sent (exec (.txWrite [0x4F, 0x0D]) (demo [] 0 false [] [.written 1])) = some [[0x4F, 0x0D]] := by decide
/-- 70 R232. -/
theorem test_no_socket :
    exec .hostRead { demo0 with socket := .dropped } = .fault .noSocket := by rfl

/-! ## Witnesses: for each statement with hypotheses, operands and a state that meet them, at the ends of each clause's range.
Obligations.<Name> is witnessed by witness_<name>. -/

/-- HexDigitToValueByRange: both ends of each range, and the bytes beside them. -/
theorem witness_hex_digit_to_value_by_range :
    (∀ b ∈ ([0x30, 0x39] : Bytes), 0x30 ≤ b.toNat ∧ b.toNat ≤ 0x39) ∧
    (∀ b ∈ ([0x61, 0x66] : Bytes), 0x61 ≤ b.toNat ∧ b.toNat ≤ 0x66) ∧
    (∀ b ∈ ([0x41, 0x46] : Bytes), 0x41 ≤ b.toNat ∧ b.toNat ≤ 0x46) ∧
    ∀ b ∈ ([0x00, 0x2F, 0x3A, 0x40, 0x47, 0x60, 0x67, 0xFF] : Bytes), ¬ (0x30 ≤ b.toNat ∧ b.toNat ≤ 0x39) ∧
      ¬ (0x61 ≤ b.toNat ∧ b.toNat ≤ 0x66) ∧ ¬ (0x41 ≤ b.toNat ∧ b.toNat ≤ 0x46) := by decide

/-- TwoHexDigitsMakeByte, ThreeHexDigitsMakeU32: digits, and an invalid one in each place. -/
theorem witness_hex_digits :
    hexDigitToValue 0x66 = .ok 15 ∧ hexDigitToValue 0x30 = .ok 0 ∧ hexDigitToValue 0x41 = .ok 10 ∧
    hexDigitToValue 0x47 = .invalidHexDigit := by decide

/-- BytesMakeDigitPairs. -/
theorem witness_bytes_make_digit_pairs :
    ([0x0A, 0xFF] : Bytes)[0]? = some 0x0A ∧ ([0x0A, 0xFF] : Bytes)[1]? = some 0xFF := by decide

/-- EncodeTransmitReturnsLine, WriteSendsEncodedLine: 0, 8 and 9 bytes. -/
theorem witness_encode_lengths :
    ([] : Bytes).length ≤ 8 ∧ (xs 8).length ≤ 8 ∧ 8 < (xs 9).length := by decide

/-- EncodedLineLength: the empty and the longest payload. -/
theorem witness_encoded_line_length :
    encodeTransmit 0x7FF [] = .ok (line7ff ++ [0x0D]) ∧
    encodeTransmit 0 (xs 8) = .ok (transmitLine 0 (xs 8)) := by decide

/-- The hypothesis `Live` of every statement that has it. -/
theorem witness_live : Live demo0 ∧ Live { demo0 with socket := .setupSent } := by unfold Live; decide

/-- TerminatorEndsLine: both terminators; the clauses at counts 4 and 5 and while Errored. -/
theorem witness_terminator_ends_line :
    ((0x0D : Byte) = 0x0D#8 ∨ (0x0D : Byte) = 0x07#8) ∧ ((0x07 : Byte) = 0x0D#8 ∨ (0x07 : Byte) = 0x07#8) ∧
    ((demoLine line7ff).acc.err = false ∧ 5 ≤ (demoLine line7ff).acc.count) ∧
    ¬ ((demoLine [0x74, 0x31, 0x32, 0x33]).acc.err = false ∧ 5 ≤ (demoLine [0x74, 0x31, 0x32, 0x33]).acc.count) ∧
    ¬ ((demo [] 32 true [] []).acc.err = false ∧ 5 ≤ (demo [] 32 true [] []).acc.count) := by decide

/-- AppendStoresByteAtCount: the first and the last place of the line, and the data bytes 0x00 and 0x0A. -/
theorem witness_append_stores_byte_at_count :
    (∀ b ∈ ([0x00, 0x0A, 0xFF] : Bytes), b ≠ 0x0D#8 ∧ b ≠ 0x07#8) ∧ demo0.acc.err = false ∧
    demo0.acc.count < demo0.maxLine ∧ (demo [] 31 false [] []).acc.count < (demo [] 31 false [] []).maxLine := by decide

/-- OverflowSetsErrored, DropChangesNothing. -/
theorem witness_overflow_and_drop :
    (0x78 : Byte) ≠ 0x0D#8 ∧ (0x78 : Byte) ≠ 0x07#8 ∧
    (demo [] 32 false [] []).acc.err = false ∧ (demo [] 32 false [] []).acc.count = (demo [] 32 false [] []).maxLine ∧
    (demo [] 32 true [] []).acc.err = true := by decide

/-- AccStepRunsSelectedTransition: its four clauses at the counts 31 and 32. -/
theorem witness_acc_step_runs_selected_transition :
    { demo0 with program := [.accStep 0x0D] }.program = .accStep 0x0D :: [] ∧
    ((0x0D : Byte) = 0x0D#8 ∨ (0x0D : Byte) = 0x07#8) ∧ (0x78 : Byte) ≠ 0x0D#8 ∧ (0x78 : Byte) ≠ 0x07#8 ∧
    ((demo [] 31 false [] []).acc.err = false ∧ (demo [] 31 false [] []).acc.count < (demo [] 31 false [] []).maxLine) ∧
    ((demo [] 32 false [] []).acc.err = false ∧ (demo [] 32 false [] []).maxLine ≤ (demo [] 32 false [] []).acc.count) ∧
    (demo [] 32 true [] []).acc.err = true := by decide

/-- UnselectedOperationIsRefused: each clause's alternatives. -/
theorem witness_unselected_operation_is_refused :
    isTerminator 0x78 = false ∧ isTerminator 0x0D = true ∧ (demo [] 32 true [] []).acc.err = true ∧
    (demo [] 32 false [] []).maxLine ≤ (demo [] 32 false [] []).acc.count ∧
    (demo [] 31 false [] []).acc.count < (demo [] 31 false [] []).maxLine ∧ demo0.acc.err = false ∧
    ([0x74, 0x31, 0x32, 0x33] : Bytes).length < 5 ∧ lineExt.getD 0 0#8 ≠ 0x74#8 ∧ line7ff.getD 0 0#8 = 0x74#8 := by decide

/-- AccDecodeComposesStepAndDecode: a pending byte, and a line. -/
theorem witness_acc_decode_composes :
    (accStep 32 0x74 demo0.acc).1 = .pending ∧ (accStep 32 0x0D (demoLine line7ff).acc).1 = .line line7ff ∧
    (demoLine line7ff).acc.count ≤ 32 := by decide

/-- LineIsolation: a fresh accumulator and one with stale bytes. -/
theorem witness_line_isolation :
    isTerminator 0x07 = true ∧ demo0.acc.count = 0 ∧ demo0.acc.err = false ∧
    (demo (cells 0 lineDead) 0 false [] []).acc.count = 0 ∧ (demo (cells 0 lineDead) 0 false [] []).acc.err = false := by
  decide

/-- OverflowedLineIsNeverDecoded: lines of MAX_LINE and MAX_LINE + 1 bytes at the smallest MAX_LINE. -/
theorem witness_overflowed_line :
    22 ≤ 22 ∧ demo0.acc.count = 0 ∧ demo0.acc.err = false ∧ NoTerminator (xs 23) ∧ NoTerminator (xs 22) ∧
    isTerminator 0x0D = true ∧ 23 ≤ (xs 23).length ∧ 22 < (xs 23).length ∧ (xs 22).length = 22 := by
  unfold NoTerminator; decide

/-- ShortLineIsAbsorbed: 0 and 4 bytes. -/
theorem witness_short_line :
    demo0.acc.count = 0 ∧ demo0.acc.err = false ∧ NoTerminator [] ∧ NoTerminator (xs 4) ∧ isTerminator 0x07 = true ∧
    ([] : Bytes).length ≤ 4 ∧ (xs 4).length ≤ 4 := by unfold NoTerminator; decide

/-- LineHandedOverAsFed: 5 and MAX_LINE bytes. -/
theorem witness_line_handed_over :
    demo0.acc.count = 0 ∧ demo0.acc.err = false ∧ NoTerminator (xs 5) ∧ NoTerminator (xs 32) ∧
    isTerminator 0x0D = true ∧ 5 ≤ (xs 5).length ∧ (xs 5).length ≤ 32 ∧ 5 ≤ (xs 32).length ∧ (xs 32).length ≤ 32 := by
  unfold NoTerminator; decide

/-- OtherCommandIsUnsupported: a line of exactly 5 bytes. -/
theorem witness_other_command : 5 ≤ (xs 5).length ∧ (xs 5).getD 0 0#8 ≠ 0x74#8 := by decide

/-- TransmitLineDecodes: a line for each cause of MalformedFrame, at the ends of its range (95 DV10, DV13, DV14, DV15, DV19). -/
theorem witness_transmit_line_malformed :
    (∀ l ∈ ([[0x74, 0x31, 0x32, 0x47, 0x30], [0x74, 0x31, 0x32, 0x33, 0x2F], [0x74, 0x31, 0x32, 0x33, 0x39],
        [0x74, 0x31, 0x32, 0x33, 0x31], [0x74, 0x31, 0x32, 0x33, 0x31, 0x30, 0x58]] : List Bytes),
      5 ≤ l.length ∧ l.getD 0 0#8 = 0x74#8) ∧
    LineMalformed [0x74, 0x31, 0x32, 0x47, 0x30] ∧ LineMalformed [0x74, 0x31, 0x32, 0x33, 0x2F] ∧
    LineMalformed [0x74, 0x31, 0x32, 0x33, 0x39] ∧ LineMalformed [0x74, 0x31, 0x32, 0x33, 0x31] ∧
    LineMalformed [0x74, 0x31, 0x32, 0x33, 0x31, 0x30, 0x58] :=
  ⟨by decide, .inl ⟨3, by decide, by decide, by decide⟩, .inr (.inl (by decide)), .inr (.inl (by decide)),
    .inr (.inr (.inl (by decide))), .inr (.inr (.inr ⟨1, by decide, by decide⟩))⟩

/-- TransmitLineDecodes: a line that is not malformed, with its digits (95 DV22: `t001142`). -/
theorem witness_transmit_line_well_formed :
    5 ≤ ([0x74, 0x30, 0x30, 0x31, 0x31, 0x34, 0x32] : Bytes).length ∧
    ¬ LineMalformed [0x74, 0x30, 0x30, 0x31, 0x31, 0x34, 0x32] ∧
    hexDigitToValue 0x30 = .ok 0 ∧ hexDigitToValue 0x31 = .ok 1 ∧ hexDigitToValue 0x34 = .ok 4 ∧
    hexDigitToValue 0x32 = .ok 2 := by
  refine ⟨by decide, ?_, by decide⟩
  rintro (⟨i, h1, h3, h⟩ | h | h | ⟨k, h2, h⟩)
  · obtain rfl | rfl | rfl : i = 1 ∨ i = 2 ∨ i = 3 := by omega
    all_goals revert h; decide
  · revert h; decide
  · revert h; decide
  · change k < 2 * 1 at h2
    obtain rfl | rfl : k = 0 ∨ k = 1 := by omega
    all_goals revert h; decide

/-- TrailingBytesIgnored. -/
theorem witness_trailing_bytes : decodeLine lineDead = .frame frameDead := by decide

/-- EncodeThenAccDecodeRoundTrip: an identifier above 12 bits (95 E3), the smallest MAX_LINE. -/
theorem witness_encode_then_acc_decode :
    22 ≤ 22 ∧ demo0.acc.count = 0 ∧ demo0.acc.err = false ∧
    encodeTransmit 0x1234 [0x01] = .ok [0x74, 0x32, 0x33, 0x34, 0x31, 0x30, 0x31, 0x0D] := by decide

/-- OpenWritesSetupThenOpen, CloseWritesCloseLine, WriteSendsEncodedLine: each phase with each answer. -/
theorem witness_transmit_answers :
    (demo [] 0 false [] [.fail ⟨1⟩]).socket = .ready ∧ nextTx (demo [] 0 false [] [.fail ⟨1⟩]) = .fail ⟨1⟩ ∧
    nextTx (demo [] 0 false [] [.written 0]) = .written 0 ∧
    { demo [] 0 false [] [.fail ⟨1⟩] with socket := .setupSent }.socket = .setupSent ∧
    nextTx { demo [] 0 false [] [.fail ⟨1⟩] with socket := .setupSent } = .fail ⟨1⟩ ∧
    nextTx { demo [] 0 false [] [.written 2] with socket := .setupSent } = .written 2 := by decide

/-- OpenRunsInTwoSteps. -/
theorem witness_open_runs_in_two_steps :
    { demo [] 0 false [] [.written 3, .written 2] with program := [.hostOpen .kbit10] }.socket = .ready ∧
    { demo [] 0 false [] [.written 3, .written 2] with program := [.hostOpen .kbit10] }.program =
      .hostOpen .kbit10 :: [] ∧
    { demo [] 0 false [] [.written 3, .written 2] with program := [.hostOpen .kbit10] }.transport.tx =
      .written 3 :: .written 2 :: [] := by decide

/-- ReadPassFollowsAccDecode: each answer, and each outcome of AccDecode. -/
theorem witness_read_pass :
    nextRx (demo [] 0 false [.empty] []) = .empty ∧ nextRx (demo [] 0 false [.fail ⟨1⟩] []) = .fail ⟨1⟩ ∧
    nextRx (demo [] 0 false [.byte 0x0D] []) = .byte 0x0D ∧
    (accDecode 32 0x0D (demoLine [0x74]).acc).1 = .pending ∧
    (accDecode 32 0x0D (demoLine lineDead).acc).1 = .decoded (.frame frameDead) ∧
    (accDecode 32 0x0D (demoLine lineZzz).acc).1 = .decoded .malformedFrame ∧
    (accDecode 32 0x0D (demoLine lineExt).acc).1 = .decoded .unsupportedCommand := by decide

/-- A socket with a READ running, before a fresh accumulator, on a transport that gives `bs` and then `rest`. -/
def demoRead (bs : Bytes) (rest : List RxResp) : State :=
  { demo [] 0 false (bs.map .byte ++ rest) [] with program := [.hostRead] }

/-- ReadRunsOnWithoutValidLine: `ab`, 0x00, CR (95 W3). -/
theorem witness_read_runs_on :
    Live (demoRead [0x61, 0x62, 0x00, 0x0D] []) ∧ (demoRead [0x61, 0x62, 0x00, 0x0D] []).program = .hostRead :: [] ∧
    (demoRead [0x61, 0x62, 0x00, 0x0D] []).transport.rx = ([0x61, 0x62, 0x00, 0x0D] : Bytes).map .byte ++ [] ∧
    (feedDecode (demoRead [0x61, 0x62, 0x00, 0x0D] []).maxLine [0x61, 0x62, 0x00, 0x0D]
      (demoRead [0x61, 0x62, 0x00, 0x0D] []).acc).1 = List.replicate 4 .pending := by unfold Live; decide

/-- ReadReturnsAtFirstValidLine: each of the three results (95 S15, W5, S17), with a byte left over. -/
theorem witness_read_returns :
    ∀ p ∈ [(line7ff, DecodeResult.frame ⟨0x7FF, 0, #v[0, 0, 0, 0, 0, 0, 0, 0]⟩), (lineZzz, .malformedFrame),
        (lineExt, .unsupportedCommand)],
      Live (demoRead p.1 [.byte 0x0D, .byte 0x74]) ∧
      (demoRead p.1 [.byte 0x0D, .byte 0x74]).program = .hostRead :: [] ∧
      (demoRead p.1 [.byte 0x0D, .byte 0x74]).transport.rx = p.1.map .byte ++ .byte 0x0D :: [.byte 0x74] ∧
      (feedDecode (demoRead p.1 [.byte 0x0D, .byte 0x74]).maxLine (p.1 ++ [0x0D])
        (demoRead p.1 [.byte 0x0D, .byte 0x74]).acc).1 = List.replicate p.1.length .pending ++ [.decoded p.2] := by
  unfold Live; decide

/-- WrittenFrameIsDelivered. -/
theorem witness_written_frame_is_delivered :
    encodeTransmit 0x7FF [] = .ok (line7ff ++ [0x0D]) ∧ demo0.acc.count = 0 ∧ demo0.acc.err = false ∧
    { demo [] 0 false ((line7ff ++ [0x0D]).map .byte) [] with program := [.hostRead] }.program = .hostRead :: [] ∧
    { demo [] 0 false ((line7ff ++ [0x0D]).map .byte) [] with program := [.hostRead] }.transport.rx =
      (line7ff ++ [0x0D]).map .byte ++ [] := by decide

/-- AccumulatorAfterRead: a READ that a byte ends and one that no byte ends. -/
theorem witness_accumulator_after_read :
    (∃ t, exec .hostRead (demo (cells 0 lineDead) 9 false [.byte 0x0D] []) = .next t ∧
      t.results ≠ (demo (cells 0 lineDead) 9 false [.byte 0x0D] []).results) ∧
    (∃ b, nextRx (demo (cells 0 lineDead) 9 false [.byte 0x0D] []) = .byte b) ∧
    (∃ t, exec .hostRead (demo [] 3 false [.empty] []) = .next t ∧
      t.results ≠ (demo [] 3 false [.empty] []).results) ∧
    ¬ ∃ b, nextRx (demo [] 3 false [.empty] []) = .byte b :=
  ⟨⟨_, rfl, by decide⟩, ⟨_, rfl⟩, ⟨_, rfl, by decide⟩, by rintro ⟨b, h⟩; cases h⟩

/-- OnlyReadChangesAccumulator, OneTransactionPerStep, EmittedBytesInAlphabet: a CLOSE and its step. -/
theorem witness_close_step :
    (∃ t, exec .hostClose (demo [] 0 false [] [.written 2]) = .next t) ∧
    (∃ t, step { demo [] 0 false [] [.written 2] with program := [.hostClose] } = .next t) ∧
    ∀ r rest, { demo [] 0 false [] [.written 2] with program := [.hostClose] }.program = r :: rest →
      r ≠ .hostRead ∧ (∀ b, r ≠ .accStep b) ∧ (∀ tr, r ≠ .hostNew tr) ∧ ∀ l, r ≠ .txWrite l := by
  refine ⟨⟨_, rfl⟩, ⟨_, rfl⟩, ?_⟩
  rintro r rest ⟨⟩
  simp

/-- StepAnswersWhileSocketExists: a DecodeLine of exactly 5 bytes. -/
theorem witness_step_answers :
    ∀ l rest, { demo0 with program := [.decodeLine line7ff] }.program = .decodeLine l :: rest → 5 ≤ l.length := by
  rintro l rest ⟨⟩
  decide

/-- IdleHoldsState, DroppedSocketHasNoOperation. -/
theorem witness_idle_and_drop :
    demo0.program = [] ∧ { demo0 with program := [.drop] }.program = .drop :: [] ∧
    { demo0 with socket := .dropped }.socket = .dropped := by decide

/-- StepRunsFetchedOperation. -/
theorem witness_step_runs_fetched_operation :
    fetch { demo0 with program := [.accStep 0x74] } = .run (.accAppend 0x74) ∧ Instr.wf (.accDrop 0x74) = true := by
  decide

/-- StepKeepsAccumulatorInvariant, StepKeepsLineWritten, StepKeepsFramesCanonical, MaxLineIsFixed: a state in the middle of a
line, with a frame returned, and its step. -/
theorem witness_invariants :
    AccInv { demoLine line7ff with program := [.accStep 0x74], results := [.read (.frame frameDead)] } ∧
    WrittenBelowCount { demoLine line7ff with program := [.accStep 0x74] } ∧
    FramesCanonical { demoLine line7ff with results := [.read (.frame frameDead)] } ∧
    ∃ t, step { demoLine line7ff with program := [.accStep 0x74], results := [.read (.frame frameDead)] } = .next t := by
  refine ⟨by unfold AccInv; decide, by unfold WrittenBelowCount; decide, ?_, ⟨_, rfl⟩⟩
  rintro f (h | h)
  · obtain rfl : f = frameDead := by
      simpa [demoLine, demo] using h
    unfold CanonicalFrame
    decide
  · simp at h

/-- StepKeepsOpenRunning: an OPEN between its two writes, and its step. -/
theorem witness_step_keeps_open_running :
    OpenRuns { demo [] 0 false [] [.written 2] with socket := .setupSent, program := [.hostOpen .mbit1] } ∧
    ∃ t, step { demo [] 0 false [] [.written 2] with socket := .setupSent, program := [.hostOpen .mbit1] } = .next t :=
  ⟨fun _ => ⟨_, _, rfl⟩, ⟨_, rfl⟩⟩

/-- StaleBytesUnobservable: one stale byte apart, with a step that answers and one that faults. -/
theorem witness_stale_bytes :
    SameButStale { demo [(0, 0x74)] 1 false [] [] with program := [.accStep 0x31] }
      { demo [(0, 0x74), (1, 0x99)] 1 false [] [] with program := [.accStep 0x31] } ∧
    (∃ t, step { demo [(0, 0x74)] 1 false [] [] with program := [.accStep 0x31] } = .next t) ∧
    step { demo0 with socket := .dropped, program := [.hostRead] } = .fault .noSocket ∧
    step { demo0 with program := [.decodeLine []] } = .refused (.undecodable .shortLine) := by
  refine ⟨⟨rfl, rfl, ?_, rfl, rfl, rfl, rfl, rfl, rfl, rfl⟩, ⟨_, rfl⟩, rfl, rfl⟩
  intro i hi
  obtain rfl : i = 0 := by simpa [demo] using hi
  rfl

/-- CommandLineRoundTrip: each kind of line; the largest identifier with the longest payload. -/
theorem witness_command_line_round_trip :
    encode (.setup .mbit1) = some [0x53, 0x38, 0x0D] ∧ encode .openCmd = some [0x4F, 0x0D] ∧
    encode .closeCmd = some [0x43, 0x0D] ∧ (0xFFF : U32).toNat ≤ 0xFFF ∧
    encode (.encodeT 0xFFF (xs 8)) = some (transmitLine 0xFFF (xs 8)) := by decide

/-- OpcodeMapsRoundTrip. -/
theorem witness_opcode_maps :
    Instr.wf (.accEnd 0x0D) = true ∧ Instr.wf (.accAppend 0x78) = true ∧ 31 < 32 ∧
    Instr.wf (.accOverflow 0x78) = true ∧ 32 ≤ 32 ∧ Instr.wf (.accDrop 0x78) = true ∧
    Instr.wf (.decodeT line7ff) = true ∧ Instr.wf (.unsupportedCommand (xs 5)) = true := by decide

end Sys2Proof.Tests
end

/-! PROOFS. 00_scope: one transaction per step, MAX_LINE is fixed, the step runs what the fetch gives. -/

namespace Sys2Proof.Machine

/-! ## MAX_LINE (00 R6) -/

/-- Settles O52: `step_results` says that a step keeps `spare`, and MAX_LINE is `spare + 22`. -/
theorem maxLineIsFixed : Obligations.MaxLineIsFixed := by
  intro s t h
  have hmax : t.maxLine = s.maxLine := congrArg (· + 22) (step_results h).2
  exact ⟨hmax, Nat.le_add_left 22 t.spare⟩

/-! ## Transactions (00 R13, 44 R189, R190) -/

/-- What an operation other than NEW may have done to the transport: no transaction, one receive or one transmit. -/
def TransportMove (s t : State) : Prop := SameTransport s t ∨ RxTaken s t ∨ ∃ l, TxTaken l s t

theorem sameTransport_retire (r : Result) (s : State) : SameTransport s (retire r s) := ⟨rfl, rfl, rfl⟩

theorem rxTransact_rxTaken (s : State) : RxTaken s (rxTransact s).2 := by
  rw [rxTransact_eq]
  exact ⟨rfl, rfl, rfl⟩

theorem txTransact_txTaken (l : Bytes) (s : State) : TxTaken l s (txTransact l s).2 := by
  rw [txTransact_eq]
  exact ⟨rfl, rfl, rfl⟩

theorem openFirst_txTaken (br : BitRate) (s : State) : TxTaken (setupCommand br) s (openFirst br s) := by
  have h := txTransact_txTaken (setupCommand br) s
  unfold openFirst
  generalize txTransact (setupCommand br) s = p at h ⊢
  obtain ⟨_ | _, u⟩ := p <;> exact h

theorem openSecond_txTaken (s : State) : TxTaken openCommand s (openSecond s) := by
  have h := txTransact_txTaken openCommand s
  unfold openSecond
  generalize txTransact openCommand s = p at h ⊢
  obtain ⟨_ | _, u⟩ := p <;> exact h

/-- A consumed byte's pass adds no transaction to the ones before it. -/
theorem rxTaken_readByte {s u : State} (h : RxTaken s u) (b : Byte) : RxTaken s (readByte b u) := by
  obtain ⟨-, -, htr, hdraws, hlog⟩ := readByte_frame b u
  unfold RxTaken at h ⊢
  rwa [htr, hdraws, hlog]

/-- What any operation but NEW does to the transport. -/
theorem exec_transport {i : Instr} {s t : State} (h : exec i s = .next t) (hnew : ∀ tr, i ≠ .hostNew tr) :
    TransportMove s t := by
  cases i with
  | accEnd b | accAppend b | accOverflow b | accDrop b =>
    obtain ⟨-, -, rfl⟩ := runTransition_next h
    exact .inl ⟨rfl, rfl, rfl⟩
  | decodeT l | unsupportedCommand l =>
    simp only [exec, execDecodeT, execUnsupportedCommand] at h
    split at h <;> cases h
    exact .inl (sameTransport_retire _ s)
  | hostNew tr => exact (hnew tr rfl).elim
  | hostOpen br =>
    obtain ⟨-, h⟩ := ifSocket_next h
    cases h
    split
    · exact .inr (.inr ⟨_, openSecond_txTaken s⟩)
    · exact .inr (.inr ⟨_, openFirst_txTaken br s⟩)
  | hostClose =>
    obtain ⟨-, h⟩ := ifSocket_next h
    cases h
    have htx := txTransact_txTaken closeCommand s
    generalize txTransact closeCommand s = p at htx ⊢
    obtain ⟨_ | _, u⟩ := p <;> exact .inr (.inr ⟨_, htx⟩)
  | hostWrite id data =>
    obtain ⟨-, h⟩ := ifSocket_next h
    cases h
    cases encodeTransmit id data with
    | invalidLength => exact .inl (sameTransport_retire _ s)
    | ok l =>
      have htx := txTransact_txTaken l s
      simp only
      generalize txTransact l s = p at htx ⊢
      obtain ⟨_ | _, u⟩ := p <;> exact .inr (.inr ⟨_, htx⟩)
  | hostRead =>
    rw [exec, execHostRead_eq] at h
    obtain ⟨-, h⟩ := ifSocket_next h
    cases h
    refine .inr (.inl ?_)
    cases nextRx s with
    | byte b => exact rxTaken_readByte (rxTransact_rxTaken s) b
    | empty => exact rxTransact_rxTaken s
    | fail e => exact rxTransact_rxTaken s
  | rxRead =>
    obtain ⟨-, h⟩ := ifSocket_next h
    cases h
    exact .inr (.inl (rxTransact_rxTaken s))
  | txWrite l =>
    obtain ⟨-, h⟩ := ifSocket_next h
    cases h
    exact .inr (.inr ⟨l, txTransact_txTaken l s⟩)
  | encodeT _ _ | setup _ | openCmd | closeCmd | hexDigitToValue _ | twoHexDigitsToByte _ _ | hexDigitsToU32 _ _ _
  | valueToHexDigit _ | u32ToThreeHexDigits _ | bytesToHex _ => cases h; exact .inl (sameTransport_retire _ s)

/-! ## Selection (00 R2, 30 R76, R68) -/

section
variable {b : Byte} (err : Bool) (count cap : Nat)

theorem selectAcc_eq_accEnd (hb : isTerminator b = true) :
    selectAcc err count cap b = .accEnd b := by
  simp [selectAcc, hb]

theorem selectAcc_eq_accDrop (hb : isTerminator b = false) :
    selectAcc true count cap b = .accDrop b := by
  simp [selectAcc, hb]

theorem selectAcc_eq_accAppend (hb : isTerminator b = false) (hc : count < cap) :
    selectAcc false count cap b = .accAppend b := by
  simp [selectAcc, hb, hc]

theorem selectAcc_eq_accOverflow (hb : isTerminator b = false) (hc : cap ≤ count) :
    selectAcc false count cap b = .accOverflow b := by
  simp [selectAcc, hb, Nat.not_lt.mpr hc]

end

/-- Whatever its state, the accumulator's opcode map gives a well-formed operation that stands for the byte (30 R76). -/
theorem selectAcc_run (err : Bool) (count cap : Nat) (b : Byte) :
    (selectAcc err count cap b).wf = true ∧ requestOf (selectAcc err count cap b) = .accStep b := by
  cases hb : isTerminator b with
  | true => rw [selectAcc_eq_accEnd _ _ _ hb]; exact ⟨hb, rfl⟩
  | false =>
    have hwf : (!isTerminator b) = true := by simp [hb]
    cases err with
    | true => rw [selectAcc_eq_accDrop _ _ hb]; exact ⟨hwf, rfl⟩
    | false =>
      rcases Nat.lt_or_ge count cap with hc | hc
      · rw [selectAcc_eq_accAppend _ _ hb hc]; exact ⟨hwf, rfl⟩
      · rw [selectAcc_eq_accOverflow _ _ hb hc]; exact ⟨hwf, rfl⟩

theorem wf_decodeT_iff (l : Bytes) :
    (Instr.decodeT l).wf = true ↔ minLine ≤ l.length ∧ byteAt l 0 = charT := by
  cases l <;> simp [Instr.wf, byteAt, minLine]

theorem wf_unsupportedCommand_iff (l : Bytes) :
    (Instr.unsupportedCommand l).wf = true ↔ minLine ≤ l.length ∧ byteAt l 0 ≠ charT := by
  cases l <;> simp [Instr.wf, byteAt, minLine]

theorem selectLine_eq_decodeT {l : Bytes} (hw : (Instr.decodeT l).wf = true) : selectLine l = .ok (.decodeT l) := by
  obtain ⟨hlen, ht⟩ := (wf_decodeT_iff l).mp hw
  simp [selectLine, Nat.not_lt.mpr hlen, ht]

theorem selectLine_eq_unsupportedCommand {l : Bytes} (hw : (Instr.unsupportedCommand l).wf = true) :
    selectLine l = .ok (.unsupportedCommand l) := by
  obtain ⟨hlen, ht⟩ := (wf_unsupportedCommand_iff l).mp hw
  simp [selectLine, Nat.not_lt.mpr hlen, ht]

/-- What the decoder's opcode map gives is well formed and stands for the line (30 R68). -/
theorem selectLine_run {l : Bytes} {i : Instr} (h : selectLine l = .ok i) :
    i.wf = true ∧ requestOf i = .decodeLine l := by
  unfold selectLine at h
  split at h
  · cases h
  · have hlen : minLine ≤ l.length := Nat.not_lt.mp ‹_›
    split at h <;> rename_i ht <;> cases h
    · exact ⟨(wf_decodeT_iff l).mpr ⟨hlen, by simpa using ht⟩, rfl⟩
    · exact ⟨(wf_unsupportedCommand_iff l).mpr ⟨hlen, by simpa using ht⟩, rfl⟩

/-- The operation a request selects is well formed and stands for that request. -/
theorem select_run {s : State} {r : Request} {i : Instr} (h : select s r = .run i) :
    i.wf = true ∧ requestOf i = r := by
  cases r with
  | accStep b => cases h; exact selectAcc_run _ _ _ b
  | decodeLine l =>
    simp only [select] at h
    cases hl : selectLine l with
    | ok j =>
      rw [hl] at h
      cases h
      exact selectLine_run hl
    | error e => rw [hl] at h; cases h
  | drop => cases h
  | _ => cases h; exact ⟨rfl, rfl⟩

/-- The operation that is fetched is well formed and stands for the running request. -/
theorem fetch_run {s : State} {i : Instr} (h : fetch s = .run i) :
    i.wf = true ∧ ∃ rest, s.program = requestOf i :: rest := by
  unfold fetch at h
  split at h
  · cases h
  · rename_i r rest hprog
    obtain ⟨hwf, rfl⟩ := select_run h
    exact ⟨hwf, rest, hprog⟩

theorem step_eq_exec_of_fetch {s : State} {i : Instr} (h : fetch s = .run i) : step s = exec i s := by
  simp [step, h]

/-- `accFor` leaves room for the byte of an ACC_APPEND. -/
theorem accFor_accAppend_count_lt (b : Byte) {cap : Nat} (hcap : 0 < cap) (a : LineAcc) :
    (accFor (.accAppend b) cap a).count < cap := by
  simp only [accFor]
  split <;> assumption

/-- `accFor` leaves no room for the byte of an ACC_OVERFLOW. -/
theorem le_accFor_accOverflow_count (b : Byte) (cap : Nat) (a : LineAcc) :
    cap ≤ (accFor (.accOverflow b) cap a).count := by
  simp only [accFor]
  split <;> omega

/-- A well-formed operation placed next is the one that is fetched. -/
theorem fetch_withRequest {i : Instr} (hw : i.wf = true) (s : State) : fetch (withRequest s i) = .run i := by
  cases i with
  | accEnd b => exact congrArg Fetched.run (selectAcc_eq_accEnd _ _ _ hw)
  | accAppend b =>
    have hb : isTerminator b = false := by simpa [Instr.wf] using hw
    exact congrArg Fetched.run (selectAcc_eq_accAppend _ _ hb (accFor_accAppend_count_lt b (Nat.succ_pos _) s.acc))
  | accOverflow b =>
    have hb : isTerminator b = false := by simpa [Instr.wf] using hw
    exact congrArg Fetched.run (selectAcc_eq_accOverflow _ _ hb (le_accFor_accOverflow_count b s.maxLine s.acc))
  | accDrop b =>
    have hb : isTerminator b = false := by simpa [Instr.wf] using hw
    exact congrArg Fetched.run (selectAcc_eq_accDrop _ _ hb)
  | decodeT l => exact congrArg ofDecoded (selectLine_eq_decodeT hw)
  | unsupportedCommand l => exact congrArg ofDecoded (selectLine_eq_unsupportedCommand hw)
  | _ => rfl

/-- Settles O46: the first clause is `fetch_run`, and the second `fetch_withRequest`. -/
theorem stepRunsFetchedOperation : Obligations.StepRunsFetchedOperation :=
  ⟨fun _ _ h => ⟨(fetch_run h).1, step_eq_exec_of_fetch h⟩,
    fun s _ hw => step_eq_exec_of_fetch (fetch_withRequest hw s)⟩

/-! ## One transaction per step (00 R13) -/

/-- Settles O41: a step that is no operation makes no transaction, and any operation but NEW makes at most one. -/
theorem oneTransactionPerStep : Obligations.OneTransactionPerStep := by
  intro s t h hnew
  rcases step_cases h with ⟨-, rfl⟩ | ⟨-, rfl⟩ | ⟨i, hf, h⟩
  · exact .inl ⟨rfl, rfl, rfl⟩
  · exact .inl ⟨rfl, rfl, rfl⟩
  · refine exec_transport h ?_
    rintro tr rfl
    obtain ⟨rest, hprog⟩ := (fetch_run hf).2
    exact hnew tr rest hprog

end Sys2Proof.Machine

/-! PROOFS. 10_state: the state after reset meets every invariant, and every returned frame is canonical. -/

namespace Sys2Proof.Machine

/-! ## The identifier of a decoded line (10 R28, 40 R102, 43 R162) -/

/-- A round of `hex_digits_to_u32` that succeeds went on from a value and shifted in one digit. -/
theorem hexShiftIn_eq_ok {acc : HexResult U32} {b : Byte} {w : U32} (h : hexShiftIn acc b = .ok w) :
    ∃ v, acc = .ok v ∧ ∃ d : Nibble, w = (v <<< 4) ||| d.setWidth 32 := by
  unfold hexShiftIn at h
  split at h
  · cases h
  · split at h <;> cases h
    exact ⟨_, rfl, _, rfl⟩

/-- Shifting a nibble into a value of `k` bits gives one of at most `k + 4` bits. -/
theorem shiftIn_nibble_lt {v : U32} {k : Nat} (hv : v.toNat < 2 ^ k) (d : Nibble) :
    ((v <<< 4) ||| d.setWidth 32).toNat < 2 ^ (k + 4) := by
  rw [BitVec.toNat_or]
  refine Nat.or_lt_two_pow ?_ ?_
  · calc (v <<< 4).toNat
        = v.toNat * 2 ^ 4 % 2 ^ 32 := by rw [BitVec.toNat_shiftLeft, Nat.shiftLeft_eq]
      _ ≤ v.toNat * 2 ^ 4 := Nat.mod_le _ _
      _ < 2 ^ (k + 4) := by rw [Nat.pow_add]; omega
  · calc (d.setWidth 32).toNat
        ≤ d.toNat := by rw [BitVec.toNat_setWidth]; exact Nat.mod_le _ _
      _ < 2 ^ 4 := d.isLt
      _ ≤ 2 ^ (k + 4) := Nat.pow_le_pow_right (by decide) (Nat.le_add_left 4 k)

/-- Three digits make a value of at most 12 bits. -/
theorem hexDigitsToU32_lt {p0 p1 p2 : Byte} {w : U32} (h : hexDigitsToU32 p0 p1 p2 = .ok w) : w.toNat < 2 ^ 12 := by
  obtain ⟨v2, h2, d2, rfl⟩ := hexShiftIn_eq_ok h
  obtain ⟨v1, h1, d1, rfl⟩ := hexShiftIn_eq_ok h2
  obtain ⟨v0, h0, d0, rfl⟩ := hexShiftIn_eq_ok h1
  cases h0
  have hstart : (0#32).toNat < 2 ^ 0 := by decide
  exact shiftIn_nibble_lt (shiftIn_nibble_lt (shiftIn_nibble_lt hstart d0) d1) d2

/-! ## The padding of a decoded line (10 R28, 43 R166) -/

theorem byteAt_eq_zero_of_length_le {l : Bytes} {i : Nat} (h : l.length ≤ i) : byteAt l i = 0#8 := by
  rw [byteAt, List.getD_eq_getElem?_getD, List.getElem?_eq_none h, Option.getD_none]

theorem padData_getElem (d : Bytes) (k : Fin 8) : (padData d)[k] = byteAt d k.val :=
  match k with
  | 0 | 1 | 2 | 3 | 4 | 5 | 6 | 7 => rfl

/-! ## Decoded frames (43 R160) -/

/-- The stages that a line decoded to a frame has passed. -/
theorem decodeLine_eq_frame {l : Bytes} {f : CanFrame} (h : decodeLine l = .frame f) :
    lineId l = .ok f.id ∧ lineDlc l = some f.dlc ∧ 5 + 2 * f.dlc.val ≤ l.length ∧
      ∃ d, lineData l f.dlc.val = .ok d ∧ f.data = padData d := by
  unfold decodeLine at h
  split at h
  · cases h
  · split at h
    · cases h
    · rename_i hid
      split at h
      · cases h
      · rename_i hdlc
        split at h
        · cases h
        · rename_i hlen
          split at h <;> cases h
          rename_i hdata
          exact ⟨hid, hdlc, Nat.not_lt.mp hlen, _, hdata, rfl⟩

/-- Every frame that DecodeLine makes is canonical: its identifier has three digits, and its data is padded with zeros from
the payload's length on, which is the dlc. -/
theorem canonicalFrame_of_decodeLine {l : Bytes} {f : CanFrame} (h : decodeLine l = .frame f) : CanonicalFrame f := by
  obtain ⟨hid, -, -, d, hdata, hpad⟩ := decodeLine_eq_frame h
  have hidBound : f.id.toNat < 2 ^ 12 := hexDigitsToU32_lt hid
  refine ⟨Nat.le_of_lt_succ hidBound, fun k hk => ?_⟩
  have hlen : d.length ≤ k.val := Nat.le_trans (Nat.le_of_eq (lineData_length hdata)) hk
  rw [hpad, padData_getElem, byteAt_eq_zero_of_length_le hlen]

/-! ## The invariants (10 R28, R33; 70 R231) -/

/-- Settles O50: by `step_results` a step returns at most one frame more, and DecodeLine made that one. -/
theorem stepKeepsFramesCanonical : Obligations.StepKeepsFramesCanonical := by
  intro s t hs h f hf
  obtain ⟨hsame | ⟨r, hadd, hr⟩, -⟩ := step_results h
  · rw [hsame] at hf
    exact hs f hf
  · simp only [hadd, List.mem_append, List.mem_singleton] at hf
    rcases or_or_or_comm.mp hf with hold | hnew
    · exact hs f hold
    · obtain ⟨l, hl⟩ := hr f (hnew.imp Eq.symm Eq.symm)
      exact canonicalFrame_of_decodeLine hl

theorem accInv_reset : AccInv State.reset := by
  refine ⟨Nat.zero_le _, fun herr => ?_, memory_wf_reset, fun _ hc => ?_⟩
  · cases herr
  · cases hc

theorem writtenBelowCount_reset : WrittenBelowCount State.reset := fun i hi => (Nat.not_lt_zero i hi).elim

theorem framesCanonical_reset : FramesCanonical State.reset := fun _ hf => by rcases hf with hf | hf <;> cases hf

theorem openRuns_reset : OpenRuns State.reset := fun hphase => by cases hphase

/-- Settles O47: reset has an empty buffer, no results and the phase `ready`, so each invariant holds of it. -/
theorem resetMeetsInvariants : Obligations.ResetMeetsInvariants :=
  have hlive : Live State.reset := fun hdropped => by cases hdropped
  ⟨rfl, rfl, Nat.le_add_left 22 _, hlive, accInv_reset, writtenBelowCount_reset, framesCanonical_reset, openRuns_reset⟩

end Sys2Proof.Machine

/-! PROOFS. 20_memory: no unspecified byte of the line buffer is handed over or observed, and a line is handed over as it
was fed. -/

namespace Sys2Proof.Machine

/-! ## What the accumulator does, by its rules (42 R140, R141, R143) -/

theorem accStep_eq_accEnd {b : Byte} (hb : isTerminator b = true) (cap : Nat) (a : LineAcc) :
    accStep cap b a = accEnd a := by
  simp [accStep, hb]

theorem accStep_eq_accAppend {cap : Nat} {b : Byte} {a : LineAcc} (hb : isTerminator b = false) (herr : a.err = false)
    (hcap : a.count < cap) : accStep cap b a = accAppend b a := by
  simp [accStep, filling, hb, herr, hcap]

theorem accEnd_eq_line {a : LineAcc} (herr : a.err = false) (hmin : minLine ≤ a.count) :
    (accEnd a).1 = .line (bufLine a a.count) := by
  simp [accEnd, lineValid, filling, herr, hmin]

theorem bufRead_accAppend (b : Byte) (a : LineAcc) (i : Nat) :
    bufRead (accAppend b a).2 i = if a.count = i then b else bufRead a i :=
  bufRead_bufWrite a a.count i b

/-- ACC_APPEND puts its byte behind the line read so far. -/
theorem bufLine_accAppend (b : Byte) (a : LineAcc) :
    bufLine (accAppend b a).2 (a.count + 1) = bufLine a a.count ++ [b] := by
  have hold : ∀ i ∈ List.range a.count, bufRead (accAppend b a).2 i = bufRead a i := fun i hi => by
    rw [bufRead_accAppend, if_neg (Nat.ne_of_gt (List.mem_range.mp hi))]
  simp [bufLine, List.range_succ, bufRead_accAppend b a a.count, List.map_congr_left hold]

/-! ## The current line is written (10 R24, 20 R41) -/

/-- Settles O49: by `step_acc` a step keeps the accumulator, makes a new one, which has an empty line, or takes one AccStep;
of its transitions only ACC_APPEND lets the line grow, by the cell it writes. -/
theorem stepKeepsLineWritten : Obligations.StepKeepsLineWritten := by
  intro s t hs h i hi
  rcases step_acc h with hacc | ⟨b, hacc⟩ | ⟨n, hacc⟩
  · rw [hacc] at hi ⊢
    exact hs i hi
  · rcases accStep_cases s.maxLine b s.acc with ⟨-, hb⟩ | ⟨-, -, -, hb⟩ | ⟨-, -, -, hb⟩ | ⟨-, -, hb⟩ <;>
      rw [hacc, hb] at hi ⊢
    · exact absurd hi (Nat.not_lt_zero i)
    · have hfind : memFind (accAppend b s.acc).2.buf i = if s.acc.count = i then some b else memFind s.acc.buf i :=
        memFind_memStore s.acc.buf s.acc.count i b
      rw [hfind]
      split
      · rfl
      · exact hs i (Nat.lt_of_le_of_ne (Nat.le_of_lt_succ hi) (Ne.symm ‹_›))
    · exact hs i hi
    · exact hs i hi
  · rw [hacc] at hi
    exact absurd hi (Nat.not_lt_zero i)

/-! ## Stale bytes and the accumulator (10 R24, 20 R42) -/

/-- The two accumulators differ at most in buffer bytes at or above the count. -/
def AgreeBelowCount (a a' : LineAcc) : Prop :=
  a'.count = a.count ∧ a'.err = a.err ∧ ∀ i < a.count, bufRead a' i = bufRead a i

/-- The two transitions give the same output and leave accumulators that differ at most in stale bytes. -/
def SameOutput {α : Type} (o o' : α × LineAcc) : Prop := o'.1 = o.1 ∧ AgreeBelowCount o.2 o'.2

section
variable {a a' : LineAcc} (h : AgreeBelowCount a a')
include h

theorem AgreeBelowCount.bufLine_count : bufLine a' a'.count = bufLine a a.count := by
  obtain ⟨hcount, -, hread⟩ := h
  rw [hcount]
  exact List.map_congr_left fun i hi => hread i (List.mem_range.mp hi)

theorem sameOutput_accEnd : SameOutput (accEnd a) (accEnd a') := by
  have hline := h.bufLine_count
  obtain ⟨hcount, herr, -⟩ := h
  refine ⟨?_, rfl, rfl, fun i hi => absurd hi (Nat.not_lt_zero i)⟩
  simp [accEnd, lineValid, filling, hcount, herr, hcount ▸ hline]

theorem sameOutput_accAppend (b : Byte) : SameOutput (accAppend b a) (accAppend b a') := by
  obtain ⟨hcount, herr, hread⟩ := h
  refine ⟨rfl, congrArg (· + 1) hcount, herr, fun i hi => ?_⟩
  rw [bufRead_accAppend, bufRead_accAppend, hcount]
  split
  · rfl
  · exact hread i (Nat.lt_of_le_of_ne (Nat.le_of_lt_succ hi) (Ne.symm ‹_›))

theorem sameOutput_accOverflow : SameOutput (accOverflow a) (accOverflow a') := by
  obtain ⟨hcount, -, hread⟩ := h
  exact ⟨rfl, hcount, rfl, hread⟩

theorem sameOutput_accDrop : SameOutput (accDrop a) (accDrop a') := ⟨rfl, h⟩

/-- AccStep selects by the count and the flag, and no transition reads a stale byte. -/
theorem sameOutput_accStep (cap : Nat) (b : Byte) : SameOutput (accStep cap b a) (accStep cap b a') := by
  have ⟨hcount, herr, _⟩ := h
  unfold accStep filling
  rw [hcount, herr]
  split
  · exact sameOutput_accEnd h
  · split
    · split
      · exact sameOutput_accAppend h b
      · exact sameOutput_accOverflow h
    · exact sameOutput_accDrop h

theorem sameOutput_accDecode (cap : Nat) (b : Byte) : SameOutput (accDecode cap b a) (accDecode cap b a') := by
  obtain ⟨hout, hacc⟩ := sameOutput_accStep h cap b
  refine ⟨?_, ?_⟩
  · rw [accDecode_out, accDecode_out, hout]
  · rw [accDecode_acc, accDecode_acc]
    exact hacc

end

/-! ## Stale bytes and the state (10 R24, R25) -/

/-- Two states that differ at most in stale bytes are one state with two accumulators that do. -/
theorem sameButStale_iff {s t : State} :
    SameButStale s t ↔ ∃ a, t = { s with acc := a } ∧ AgreeBelowCount s.acc a := by
  constructor
  · intro h
    obtain ⟨acc, spare, socket, transport, draws, program, results, txLog⟩ := t
    obtain ⟨hcount, herr, hread, rfl, rfl, rfl, rfl, rfl, rfl, rfl⟩ := h
    exact ⟨acc, rfl, hcount, herr, hread⟩
  · rintro ⟨a, rfl, hcount, herr, hread⟩
    exact ⟨hcount, herr, hread, rfl, rfl, rfl, rfl, rfl, rfl, rfl⟩

theorem sameButStale_refl (s : State) : SameButStale s s := sameButStale_iff.mpr ⟨s.acc, rfl, rfl, rfl, fun _ _ => rfl⟩

section
variable {s t : State} (h : SameButStale s t)
include h

theorem SameButStale.agreeBelowCount : AgreeBelowCount s.acc t.acc := by
  obtain ⟨a, rfl, ha⟩ := sameButStale_iff.mp h
  exact ha

theorem SameButStale.maxLine_eq : t.maxLine = s.maxLine := by
  obtain ⟨a, rfl, -⟩ := sameButStale_iff.mp h
  rfl

theorem SameButStale.socket_eq : t.socket = s.socket := by
  obtain ⟨a, rfl, -⟩ := sameButStale_iff.mp h
  rfl

/-- Putting in two accumulators that differ at most in stale bytes. -/
theorem sameButStale_setAcc {a a' : LineAcc} (ha : AgreeBelowCount a a') :
    SameButStale { s with acc := a } { t with acc := a' } := by
  obtain ⟨_, rfl, -⟩ := sameButStale_iff.mp h
  exact sameButStale_iff.mpr ⟨a', rfl, ha⟩

theorem sameButStale_setSocket (p : SocketPhase) : SameButStale { s with socket := p } { t with socket := p } := by
  obtain ⟨a, rfl, ha⟩ := sameButStale_iff.mp h
  exact sameButStale_iff.mpr ⟨a, rfl, ha⟩

theorem sameButStale_retire (r : Result) : SameButStale (retire r s) (retire r t) := by
  obtain ⟨a, rfl, ha⟩ := sameButStale_iff.mp h
  exact sameButStale_iff.mpr ⟨a, rfl, ha⟩

theorem sameButStale_dropSocket : SameButStale (dropSocket s) (dropSocket t) := by
  obtain ⟨a, rfl, ha⟩ := sameButStale_iff.mp h
  exact sameButStale_iff.mpr ⟨a, rfl, ha⟩

/-- NEW forgets the old buffer: its free contents depend on the draw count alone (70 R230). -/
theorem sameButStale_newSocket (tr : Transport) : SameButStale (newSocket tr s) (newSocket tr t) := by
  obtain ⟨a, rfl, -⟩ := sameButStale_iff.mp h
  exact sameButStale_refl (newSocket tr s)

theorem rxTransact_sameButStale :
    ∃ r u v, rxTransact s = (r, u) ∧ rxTransact t = (r, v) ∧ SameButStale u v := by
  obtain ⟨a, rfl, ha⟩ := sameButStale_iff.mp h
  exact ⟨_, _, _, rxTransact_eq s, rxTransact_eq _, sameButStale_iff.mpr ⟨a, rfl, ha⟩⟩

theorem txTransact_sameButStale (l : Bytes) :
    ∃ r u v, txTransact l s = (r, u) ∧ txTransact l t = (r, v) ∧ SameButStale u v := by
  obtain ⟨a, rfl, ha⟩ := sameButStale_iff.mp h
  exact ⟨_, _, _, txTransact_eq l s, txTransact_eq l _, sameButStale_iff.mpr ⟨a, rfl, ha⟩⟩

/-! ## Stale bytes and the host operations (44) -/

theorem sameButStale_openFirst (br : BitRate) : SameButStale (openFirst br s) (openFirst br t) := by
  obtain ⟨r, u, v, hs, ht, huv⟩ := txTransact_sameButStale h (setupCommand br)
  unfold openFirst
  rw [hs, ht]
  cases r with
  | written n => exact sameButStale_setSocket huv .setupSent
  | fail e => exact sameButStale_retire huv _

theorem sameButStale_openSecond : SameButStale (openSecond s) (openSecond t) := by
  obtain ⟨r, u, v, hs, ht, huv⟩ := txTransact_sameButStale h openCommand
  unfold openSecond
  rw [hs, ht]
  cases r with
  | written n => exact sameButStale_retire (sameButStale_setSocket huv .ready) _
  | fail e => exact sameButStale_retire (sameButStale_setSocket huv .ready) _

theorem sameButStale_readByte (b : Byte) : SameButStale (readByte b s) (readByte b t) := by
  obtain ⟨hout, hacc⟩ := sameOutput_accDecode h.agreeBelowCount s.maxLine b
  unfold readByte
  rw [h.maxLine_eq]
  generalize accDecode s.maxLine b s.acc = o at hout hacc
  generalize accDecode s.maxLine b t.acc = o' at hout hacc
  obtain ⟨out, a⟩ := o
  obtain ⟨out', a'⟩ := o'
  obtain rfl : out' = out := hout
  have hset := sameButStale_setAcc h hacc
  cases out' with
  | pending => exact hset
  | decoded r =>
    cases r with
    | frame f => exact sameButStale_retire hset _
    | malformedFrame => exact sameButStale_retire hset _
    | unsupportedCommand => exact sameButStale_retire hset _

end

/-! ## Stale bytes and the step (00 R13) -/

/-- Two outcomes are alike: next states that differ at most in stale bytes, or the same fault or refusal. -/
inductive OutcomesAlike : Host.Outcome State Fault Refusal → Host.Outcome State Fault Refusal → Prop where
  | next {s t : State} (h : SameButStale s t) : OutcomesAlike (.next s) (.next t)
  | fault (f : Fault) : OutcomesAlike (.fault f) (.fault f)
  | refused (r : Refusal) : OutcomesAlike (.refused r) (.refused r)

section
variable {s t : State} (h : SameButStale s t)
include h

theorem outcomesAlike_retire (r : Result) : OutcomesAlike (.next (retire r s)) (.next (retire r t)) :=
  .next (sameButStale_retire h r)

theorem outcomesAlike_ifSocket {o o' : Host.Outcome State Fault Refusal} (ho : OutcomesAlike o o') :
    OutcomesAlike (ifSocket s o) (ifSocket t o') := by
  unfold ifSocket
  rw [h.socket_eq]
  split
  · exact .fault _
  · exact ho

/-- A transition that is selected alike, with the same output, runs alike. -/
theorem outcomesAlike_runTransition {sel sel' : Bool} {o o' : AccOut × LineAcc} (hsel : sel' = sel)
    (ho : SameOutput o o') : OutcomesAlike (runTransition sel o s) (runTransition sel' o' t) := by
  obtain ⟨hout, hacc⟩ := ho
  subst hsel
  refine outcomesAlike_ifSocket h ?_
  rw [hout]
  split
  · exact outcomesAlike_retire (sameButStale_setAcc h hacc) _
  · exact .refused _

/-- Every operation: none reads a stale byte. -/
theorem outcomesAlike_exec (i : Instr) : OutcomesAlike (exec i s) (exec i t) := by
  have ha := h.agreeBelowCount
  have ⟨hcount, herr, _⟩ := ha
  cases i with
  | accEnd b => exact outcomesAlike_runTransition h rfl (sameOutput_accEnd ha)
  | accAppend b =>
    refine outcomesAlike_runTransition h ?_ (sameOutput_accAppend ha b)
    rw [filling, filling, hcount, herr, h.maxLine_eq]
  | accOverflow b =>
    refine outcomesAlike_runTransition h ?_ (sameOutput_accOverflow ha)
    rw [filling, filling, hcount, herr, h.maxLine_eq]
  | accDrop b =>
    refine outcomesAlike_runTransition h ?_ (sameOutput_accDrop ha)
    rw [errored, errored, herr]
  | decodeT l =>
    simp only [exec, execDecodeT]
    split
    · exact outcomesAlike_retire h _
    · exact .refused _
  | unsupportedCommand l =>
    simp only [exec, execUnsupportedCommand]
    split
    · exact outcomesAlike_retire h _
    · exact .refused _
  | hostNew tr => exact outcomesAlike_retire (sameButStale_newSocket h tr) _
  | hostOpen br =>
    refine outcomesAlike_ifSocket h (.next ?_)
    rw [h.socket_eq]
    split
    · exact sameButStale_openSecond h
    · exact sameButStale_openFirst h br
  | hostClose =>
    obtain ⟨r, u, v, hs, ht, huv⟩ := txTransact_sameButStale h closeCommand
    refine outcomesAlike_ifSocket h (.next ?_)
    rw [hs, ht]
    cases r with
    | written n => exact sameButStale_retire huv _
    | fail e => exact sameButStale_retire huv _
  | hostWrite id data =>
    refine outcomesAlike_ifSocket h (.next ?_)
    cases encodeTransmit id data with
    | invalidLength => exact sameButStale_retire h _
    | ok l =>
      obtain ⟨r, u, v, hs, ht, huv⟩ := txTransact_sameButStale h l
      simp only [hs, ht]
      cases r with
      | written n => exact sameButStale_retire huv _
      | fail e => exact sameButStale_retire huv _
  | hostRead =>
    obtain ⟨r, u, v, hs, ht, huv⟩ := rxTransact_sameButStale h
    refine outcomesAlike_ifSocket h (.next ?_)
    rw [hs, ht]
    cases r with
    | byte b => exact sameButStale_readByte huv b
    | empty => exact sameButStale_retire huv _
    | fail e => exact sameButStale_retire huv _
  | rxRead =>
    obtain ⟨r, u, v, hs, ht, huv⟩ := rxTransact_sameButStale h
    refine outcomesAlike_ifSocket h (.next ?_)
    rw [hs, ht]
    exact sameButStale_retire huv _
  | txWrite l =>
    obtain ⟨r, u, v, hs, ht, huv⟩ := txTransact_sameButStale h l
    refine outcomesAlike_ifSocket h (.next ?_)
    rw [hs, ht]
    exact sameButStale_retire huv _
  | encodeT _ _ | setup _ | openCmd | closeCmd | hexDigitToValue _ | twoHexDigitsToByte _ _ | hexDigitsToU32 _ _ _
  | valueToHexDigit _ | u32ToThreeHexDigits _ | bytesToHex _ => exact outcomesAlike_retire h _

/-- The opcode maps look at the count, the flag and MAX_LINE alone (30 R76, R68). -/
theorem select_sameButStale (r : Request) : select t r = select s r := by
  obtain ⟨hcount, herr, -⟩ := h.agreeBelowCount
  cases r with
  | accStep b => rw [select, select, hcount, herr, h.maxLine_eq]
  | _ => rfl

theorem fetch_sameButStale : fetch t = fetch s := by
  have hselect := select_sameButStale h
  obtain ⟨a, rfl, -⟩ := sameButStale_iff.mp h
  unfold fetch
  cases s.program with
  | nil => rfl
  | cons r rest => exact hselect r

theorem outcomesAlike_step : OutcomesAlike (step s) (step t) := by
  unfold step
  rw [fetch_sameButStale h]
  cases fetch s with
  | idle => exact .next h
  | drop => exact outcomesAlike_ifSocket h (.next (sameButStale_dropSocket h))
  | run i => exact outcomesAlike_exec h i
  | reject e => exact .refused _

end

/-- Settles O53: both steps run the same operation, and every operation does alike on both states. -/
theorem staleBytesUnobservable : Obligations.StaleBytesUnobservable := by
  intro s t h
  have halike := outcomesAlike_step h
  generalize step s = o at halike
  generalize step t = o' at halike
  cases halike with
  | next hst => exact ⟨fun _ hs => ⟨_, rfl, by cases hs; exact hst⟩, nofun, nofun⟩
  | fault f => exact ⟨nofun, fun _ => id, fun _ => id⟩
  | refused r => exact ⟨nofun, fun _ => id, fun _ => id⟩

/-! ## A line as it was fed (20 R42, 42 R141, R143) -/

/-- Data bytes that leave the line within MAX_LINE, and a terminator: the line handed over is what the buffer already held
of it, and these bytes behind. -/
theorem feedStep_line {cap : Nat} {bs : Bytes} {e : Byte} {a : LineAcc} (herr : a.err = false) (hbs : NoTerminator bs)
    (he : isTerminator e = true) (hmin : minLine ≤ a.count + bs.length) (hcap : a.count + bs.length ≤ cap) :
    (feedStep cap (bs ++ [e]) a).1 = List.replicate bs.length .pending ++ [.line (bufLine a a.count ++ bs)] := by
  induction bs generalizing a with
  | nil =>
    have hline : (accStep cap e a).1 = .line (bufLine a a.count) := by
      rw [accStep_eq_accEnd he]
      exact accEnd_eq_line herr hmin
    simp [feedStep, hline]
  | cons b bs ih =>
    obtain ⟨hb, hbs⟩ := List.forall_mem_cons.mp hbs
    rw [List.length_cons] at hmin hcap
    have happend : accStep cap b a = accAppend b a := accStep_eq_accAppend hb herr (by omega)
    have hcount : (accAppend b a).2.count = a.count + 1 := rfl
    have hrest := ih (a := (accAppend b a).2) herr hbs (by omega) (by omega)
    rw [hcount, bufLine_accAppend, List.append_assoc] at hrest
    simp only [List.cons_append, feedStep, happend, hrest]
    rfl

/-- Settles O23: `feedStep_line` from an empty line, of which the buffer holds no byte. -/
theorem lineHandedOverAsFed : Obligations.LineHandedOverAsFed := by
  intro cap bs e a hcount herr hbs he hmin hcap
  have hfed := feedStep_line (cap := cap) herr hbs he (by rw [hcount, Nat.zero_add]; exact hmin) (by omega)
  rw [hcount] at hfed
  exact hfed

end Sys2Proof.Machine

/-! PROOFS. 30_encoding: the lines the block emits are read back and stay in their alphabet, and the opcode maps select by
the condition of each operation. -/

namespace Sys2Proof.Machine

/-! ## Digits put together again (30 R64, 40 R104, R105) -/

/-- The bits from `k` on, before the `k` bits below them. -/
theorem setWidth_shiftRight_append_setWidth {w : Nat} (v : BitVec w) (n k : Nat) :
    ((v >>> k).setWidth n ++ v.setWidth k) = v.setWidth (n + k) := by
  ext i hi
  rw [BitVec.getElem_append]
  split
  · simp
  · simp only [BitVec.getElem_setWidth, BitVec.getLsbD_ushiftRight]
    congr 1
    omega

/-- The two nibbles of a byte, high nibble first. -/
theorem byte_nibbles_append (b : Byte) : ((b >>> 4).setWidth 4 ++ b.setWidth 4 : BitVec 8) = b := by
  rw [setWidth_shiftRight_append_setWidth b 4 4, BitVec.setWidth_eq]

/-- The three nibbles of an identifier of at most 12 bits, most significant first. -/
theorem id_nibbles_append {v : U32} (hv : v.toNat ≤ 0xFFF) :
    ((v >>> 8).setWidth 4 ++ (v >>> 4).setWidth 4 ++ v.setWidth 4 : BitVec 12).setWidth 32 = v := by
  have hhigh : ((v >>> 8).setWidth 4 ++ (v >>> 4).setWidth 4 : BitVec 8) = (v >>> 4).setWidth 8 := by
    rw [← setWidth_shiftRight_append_setWidth (v >>> 4) 4 4, ← BitVec.shiftRight_add]
  rw [hhigh, setWidth_shiftRight_append_setWidth v 8 4]
  refine BitVec.eq_of_toNat_eq ?_
  rw [BitVec.toNat_setWidth, BitVec.toNat_setWidth]
  omega

/-! ## Outbound lines read back (30 R63-R67) -/

@[simp] theorem bitRateOf_bitRateCode (br : BitRate) : bitRateOf (bitRateCode br) = some br := by
  cases br <;> rfl

@[simp] theorem takeCr_cr (i : Instr) (rest : Bytes) : takeCr i (cr :: rest) = .ok (i, rest) := by
  simp [takeCr]

/-- The data field is read back byte by byte, whatever follows it. -/
theorem takeData_bytesToHex (d rest : Bytes) : takeData d.length (bytesToHex d ++ rest) = .ok (d, rest) := by
  induction d with
  | nil => rfl
  | cons b d ih => simp [bytesToHex, byteToHex, takeData, ih, byte_nibbles_append]

/-- The DLC digit of a payload no longer than a frame's is the payload's length. -/
theorem toNat_dlc {data : Bytes} (hdata : data.length ≤ dataCap) : (BitVec.ofNat 4 data.length).toNat = data.length := by
  rw [BitVec.toNat_ofNat, Nat.mod_eq_of_lt (Nat.lt_of_le_of_lt hdata (by decide))]

theorem decodeCommand_transmitLine {id : U32} {data : Bytes} (hid : id.toNat ≤ 0xFFF) (hdata : data.length ≤ dataCap)
    (rest : Bytes) : decodeCommand (transmitLine id data ++ rest) = .ok (.encodeT id data, rest) := by
  have hdlc : ¬ 8 < (BitVec.ofNat 4 data.length).toNat := by rw [toNat_dlc hdata]; exact Nat.not_lt.mpr hdata
  have hfield := takeData_bytesToHex data (cr :: rest)
  rw [← toNat_dlc hdata] at hfield
  simp [transmitLine, u32ToThreeHexDigits, decodeCommand, takeTransmit, -BitVec.toNat_ofNat, hdlc, hfield,
    id_nibbles_append hid]

theorem decodeCommand_setupCommand (br : BitRate) (rest : Bytes) :
    decodeCommand (setupCommand br ++ rest) = .ok (.setup br, rest) := by
  have hletter : ¬ charS = charT := by decide
  simp [setupCommand, decodeCommand, hletter, takeSetup]

theorem decodeCommand_openCommand (rest : Bytes) : decodeCommand (openCommand ++ rest) = .ok (.openCmd, rest) := rfl

theorem decodeCommand_closeCommand (rest : Bytes) : decodeCommand (closeCommand ++ rest) = .ok (.closeCmd, rest) := rfl

/-- Settles O54: one lemma on `decodeCommand` for each kind of line. The transmit line turns on `takeData_bytesToHex`, an
induction over the payload, and on the bound that lets three digits hold the identifier. -/
theorem commandLineRoundTrip : Obligations.CommandLineRoundTrip := by
  rintro i bs rest (⟨br, rfl⟩ | rfl | rfl | ⟨id, data, rfl, hid⟩) henc
  · cases henc
    exact decodeCommand_setupCommand br rest
  · cases henc
    exact decodeCommand_openCommand rest
  · cases henc
    exact decodeCommand_closeCommand rest
  · obtain ⟨hdata, hline⟩ := Option.ite_none_right_eq_some.mp henc
    cases hline
    exact decodeCommand_transmitLine hid hdata rest

/-! ## The opcode maps (30 R76, R68) -/

/-- Settles O55: each map's equation under the condition of the operation. -/
theorem opcodeMapsRoundTrip : Obligations.OpcodeMapsRoundTrip := by
  have notTerminator {b : Byte} (hw : (!isTerminator b) = true) : isTerminator b = false := by simpa using hw
  refine ⟨fun b err count cap => ⟨fun hw => ⟨rfl, ?_⟩, fun hw hc => ⟨rfl, ?_⟩, fun hw hc => ⟨rfl, ?_⟩,
    fun hw => ⟨rfl, ?_⟩⟩, fun l => ⟨fun hw => ⟨rfl, ?_⟩, fun hw => ⟨rfl, ?_⟩⟩⟩
  · exact selectAcc_eq_accEnd err count cap hw
  · exact selectAcc_eq_accAppend count cap (notTerminator hw) hc
  · exact selectAcc_eq_accOverflow count cap (notTerminator hw) hc
  · exact selectAcc_eq_accDrop count cap (notTerminator hw)
  · exact selectLine_eq_decodeT hw
  · exact selectLine_eq_unsupportedCommand hw

/-- Settles O56: the samples are instances of the maps' equations and of `decodeCommand` on each kind of line. -/
theorem sampleBytesDecode : Obligations.SampleBytesDecode :=
  ⟨selectAcc_eq_accEnd _ _ _ rfl, selectAcc_eq_accEnd _ _ _ rfl, selectAcc_eq_accAppend _ _ rfl (by decide),
    selectAcc_eq_accOverflow _ _ rfl (by decide), selectAcc_eq_accDrop _ _ rfl, selectLine_eq_decodeT rfl,
    selectLine_eq_unsupportedCommand rfl,
    decodeCommand_transmitLine (id := 0x123#32) (data := [0xDE#8, 0xAD#8]) (by decide) (by decide) [],
    decodeCommand_setupCommand .kbit10 [], decodeCommand_openCommand [], decodeCommand_closeCommand []⟩

/-! ## The alphabet of the emitted lines (30 R79) -/

/-- A line in the block's alphabet that ends in CR. -/
def EmittableLine (l : Bytes) : Prop := l.getLast? = some cr ∧ ∀ b ∈ l, Emittable b

theorem emittable_valueToHexDigit (n : Nibble) : Emittable (valueToHexDigit n) := .inr (valueToHexDigit_mem n)

theorem emittable_bitRateCode (br : BitRate) : Emittable (bitRateCode br) := .inr (by cases br <;> decide)

theorem emittable_of_letter {b : Byte} (h : b ∈ [charT, charS, charO, charC, cr]) : Emittable b := .inl h

/-- CR closes a line of emittable bytes. -/
theorem emittableLine_append_cr {l : Bytes} (h : ∀ b ∈ l, Emittable b) : EmittableLine (l ++ [cr]) := by
  refine ⟨List.getLast?_concat, fun b hb => ?_⟩
  rcases List.mem_append.mp hb with hb | hb
  · exact h b hb
  · obtain rfl := List.mem_singleton.mp hb
    exact emittable_of_letter (by decide)

theorem emittableLine_setupCommand (br : BitRate) : EmittableLine (setupCommand br) :=
  emittableLine_append_cr (l := [charS, bitRateCode br]) <| List.forall_mem_cons.mpr
    ⟨emittable_of_letter (by decide), List.forall_mem_singleton.mpr (emittable_bitRateCode br)⟩

theorem emittableLine_openCommand : EmittableLine openCommand :=
  emittableLine_append_cr (l := [charO]) (List.forall_mem_singleton.mpr (emittable_of_letter (by decide)))

theorem emittableLine_closeCommand : EmittableLine closeCommand :=
  emittableLine_append_cr (l := [charC]) (List.forall_mem_singleton.mpr (emittable_of_letter (by decide)))

theorem emittableLine_transmitLine (id : U32) (data : Bytes) : EmittableLine (transmitLine id data) := by
  refine emittableLine_append_cr fun b hb => ?_
  simp only [u32ToThreeHexDigits, List.cons_append, List.nil_append, List.mem_cons] at hb
  rcases hb with rfl | rfl | rfl | rfl | rfl | hb
  · exact emittable_of_letter (by decide)
  · exact emittable_valueToHexDigit _
  · exact emittable_valueToHexDigit _
  · exact emittable_valueToHexDigit _
  · exact emittable_valueToHexDigit _
  · obtain ⟨n, rfl⟩ := mem_bytesToHex hb
    exact emittable_valueToHexDigit n

/-! ## What a step adds to the transmit log -/

/-- Every line added to the transmit log is an emittable one. -/
def EmitsLines (s t : State) : Prop := ∃ recs, t.txLog = s.txLog ++ recs ∧ ∀ x ∈ recs, EmittableLine x.line

theorem emitsLines_of_txLog_eq {s t : State} (h : t.txLog = s.txLog) : EmitsLines s t := ⟨[], by simp [h], nofun⟩

theorem emitsLines_of_rxTaken {s t : State} (h : RxTaken s t) : EmitsLines s t := by
  obtain ⟨-, hlog, -⟩ := h
  exact emitsLines_of_txLog_eq hlog

theorem emitsLines_of_txTaken {l : Bytes} {s t : State} (h : TxTaken l s t) (hl : EmittableLine l) : EmitsLines s t := by
  obtain ⟨-, hlog, -⟩ := h
  exact ⟨_, hlog, List.forall_mem_singleton.mpr hl⟩

/-- An operation but TxWrite sends a formatter's line or nothing. -/
theorem exec_emitsLines {i : Instr} {s t : State} (h : exec i s = .next t) (htx : ∀ l, i ≠ .txWrite l) :
    EmitsLines s t := by
  cases i with
  | accEnd b | accAppend b | accOverflow b | accDrop b =>
    obtain ⟨-, -, rfl⟩ := runTransition_next h
    exact emitsLines_of_txLog_eq rfl
  | decodeT l | unsupportedCommand l =>
    simp only [exec, execDecodeT, execUnsupportedCommand] at h
    split at h <;> cases h
    exact emitsLines_of_txLog_eq rfl
  | hostOpen br =>
    obtain ⟨-, h⟩ := ifSocket_next h
    cases h
    split
    · exact emitsLines_of_txTaken (openSecond_txTaken s) emittableLine_openCommand
    · exact emitsLines_of_txTaken (openFirst_txTaken br s) (emittableLine_setupCommand br)
  | hostClose =>
    obtain ⟨-, h⟩ := ifSocket_next h
    cases h
    have hsent := emitsLines_of_txTaken (txTransact_txTaken closeCommand s) emittableLine_closeCommand
    generalize txTransact closeCommand s = p at hsent ⊢
    obtain ⟨_ | _, u⟩ := p <;> exact hsent
  | hostWrite id data =>
    obtain ⟨-, h⟩ := ifSocket_next h
    cases h
    cases hl : encodeTransmit id data with
    | invalidLength => exact emitsLines_of_txLog_eq rfl
    | ok l =>
      obtain ⟨-, rfl⟩ := encodeTransmit_ok hl
      have hsent := emitsLines_of_txTaken (txTransact_txTaken _ s) (emittableLine_transmitLine id data)
      simp only
      generalize txTransact (transmitLine id data) s = p at hsent ⊢
      obtain ⟨_ | _, u⟩ := p <;> exact hsent
  | hostRead =>
    rw [exec, execHostRead_eq] at h
    obtain ⟨-, h⟩ := ifSocket_next h
    cases h
    have hrx := rxTransact_rxTaken s
    cases nextRx s with
    | byte b => exact emitsLines_of_rxTaken (rxTaken_readByte hrx b)
    | empty => exact emitsLines_of_rxTaken hrx
    | fail e => exact emitsLines_of_rxTaken hrx
  | rxRead =>
    obtain ⟨-, h⟩ := ifSocket_next h
    cases h
    exact emitsLines_of_rxTaken (rxTransact_rxTaken s)
  | txWrite l => exact (htx l rfl).elim
  | hostNew _ | encodeT _ _ | setup _ | openCmd | closeCmd | hexDigitToValue _ | twoHexDigitsToByte _ _
  | hexDigitsToU32 _ _ _ | valueToHexDigit _ | u32ToThreeHexDigits _ | bytesToHex _ =>
    cases h
    exact emitsLines_of_txLog_eq rfl

/-- Settles O42: a step that is no operation sends nothing, and any operation but TxWrite sends emittable lines. -/
theorem emittedBytesInAlphabet : Obligations.EmittedBytesInAlphabet := by
  intro s t h htx
  rcases step_cases h with ⟨-, rfl⟩ | ⟨-, rfl⟩ | ⟨i, hf, h⟩
  · exact emitsLines_of_txLog_eq rfl
  · exact emitsLines_of_txLog_eq rfl
  · refine exec_emitsLines h ?_
    rintro l rfl
    obtain ⟨rest, hprog⟩ := (fetch_run hf).2
    exact htx l rest hprog

end Sys2Proof.Machine

/-! PROOFS. 40_hex_codec: the value of each function of the codec as arithmetic on numbers, and the inverse laws. Digits are
put together as `BitVec` appends, most significant first, and taken apart by `setWidth_shiftRight_append_setWidth`. -/

namespace Sys2Proof.Machine

/-! ## One digit (40 R100, R103) -/

/-- The three ranges and their values on numbers: a subtraction is taken inside its range and never wraps (40 R106). -/
theorem hexDigitToValue_eq (b : Byte) : hexDigitToValue b =
    if 0x30 ≤ b.toNat ∧ b.toNat ≤ 0x39 then .ok (BitVec.ofNat 4 (b.toNat - 0x30))
    else if 0x61 ≤ b.toNat ∧ b.toNat ≤ 0x66 then .ok (BitVec.ofNat 4 (b.toNat - 0x61 + 10))
    else if 0x41 ≤ b.toNat ∧ b.toNat ≤ 0x46 then .ok (BitVec.ofNat 4 (b.toNat - 0x41 + 10))
    else .invalidHexDigit := by
  have nibble {x : Byte} {m : Nat} (h : x.toNat = m) : x.setWidth 4 = BitVec.ofNat 4 m := by
    rw [← h, BitVec.ofNat_toNat]
  unfold hexDigitToValue
  simp only [BitVec.le_def, BitVec.reduceToNat]
  split
  · exact congrArg _ (nibble (by bv_omega))
  · split
    · exact congrArg _ (nibble (by bv_omega))
    · split
      · exact congrArg _ (nibble (by bv_omega))
      · rfl

theorem toNat_valueToHexDigit (n : Nibble) :
    (valueToHexDigit n).toNat = if n.toNat ≤ 9 then 0x30 + n.toNat else 0x41 + (n.toNat - 10) := by
  revert n; decide

/-- A number below 16 is its nibble. -/
theorem exists_ok_ofNat {m : Nat} (h : m < 16) : ∃ n, HexResult.ok (BitVec.ofNat 4 m) = .ok n ∧ n.toNat = m :=
  ⟨_, rfl, (BitVec.toNat_ofNat m 4).trans (Nat.mod_eq_of_lt h)⟩

/-- Settles O1: by `hexDigitToValue_eq`, whose ranges are disjoint, each clause decides the case. -/
theorem hexDigitToValueByRange : Obligations.HexDigitToValueByRange := by
  intro b s
  refine ⟨_, _, rfl, onlyReturns_retire s _, fun h => ?_, fun h => ?_, fun h => ?_, fun h0 ha hA => ?_⟩ <;>
    rw [hexDigitToValue_eq]
  · rw [if_pos h]
    exact exists_ok_ofNat (by omega)
  · rw [if_neg (by omega), if_pos h]
    exact exists_ok_ofNat (by omega)
  · rw [if_neg (by omega), if_neg (by omega), if_pos h]
    exact exists_ok_ofNat (by omega)
  · rw [if_neg h0, if_neg ha, if_neg hA]

/-- Settles O4: the alphabet's code at each index. -/
theorem nibbleMakesUppercaseDigit : Obligations.NibbleMakesUppercaseDigit :=
  fun n s => ⟨_, _, rfl, onlyReturns_retire s _, toNat_valueToHexDigit n⟩

/-! ## Digits to a number (40 R101, R102) -/

/-- Appending a nibble multiplies by 16 and adds it. -/
theorem toNat_append_nibble {k : Nat} (u : BitVec k) (d : Nibble) : (u ++ d).toNat = 16 * u.toNat + d.toNat := by
  rw [BitVec.toNat_append, ← Nat.shiftLeft_add_eq_or_of_lt d.isLt, Nat.shiftLeft_eq, Nat.mul_comm]

/-- To shift left by 4 and OR a nibble in is to append it. -/
theorem setWidth_shiftLeft_or_nibble {k : Nat} (w : Nat) (u : BitVec k) (d : Nibble) :
    (u.setWidth w <<< 4) ||| d.setWidth w = (u ++ d).setWidth w := by
  ext i hi
  simp only [BitVec.getElem_or, BitVec.getElem_shiftLeft, BitVec.getElem_setWidth, BitVec.getLsbD_append]
  by_cases h : i < 4
  · simp [h]
  · simp [h, BitVec.getLsbD_of_ge d i (Nat.not_lt.mp h)]

theorem twoHexDigitsToByte_eq_ok {p0 p1 : Byte} {hi lo : Nibble} (h0 : hexDigitToValue p0 = .ok hi)
    (h1 : hexDigitToValue p1 = .ok lo) : twoHexDigitsToByte p0 p1 = .ok (hi ++ lo) := by
  simp only [twoHexDigitsToByte, h0, h1, setWidth_shiftLeft_or_nibble, BitVec.setWidth_eq]

theorem twoHexDigitsToByte_eq_invalid {p0 p1 : Byte}
    (h : hexDigitToValue p0 = .invalidHexDigit ∨ hexDigitToValue p1 = .invalidHexDigit) :
    twoHexDigitsToByte p0 p1 = .invalidHexDigit := by
  unfold twoHexDigitsToByte
  rcases h with h | h
  · rw [h]
  · rw [h]
    split <;> rfl

/-- Settles O2: the two digits' nibbles are appended, high digit first. -/
theorem twoHexDigitsMakeByte : Obligations.TwoHexDigitsMakeByte :=
  fun _ _ s => ⟨_, _, rfl, onlyReturns_retire s _,
    fun hi lo h0 h1 => ⟨_, twoHexDigitsToByte_eq_ok h0 h1, toNat_append_nibble hi lo⟩, twoHexDigitsToByte_eq_invalid⟩

/-- A round that meets a digit appends its nibble to the value built so far. -/
theorem hexShiftIn_ok {k : Nat} (u : BitVec k) {b : Byte} {d : Nibble} (hb : hexDigitToValue b = .ok d) :
    hexShiftIn (.ok (u.setWidth 32)) b = .ok ((u ++ d).setWidth 32) := by
  simp only [hexShiftIn, hb, setWidth_shiftLeft_or_nibble]

@[simp] theorem hexShiftIn_invalid (b : Byte) : hexShiftIn .invalidHexDigit b = .invalidHexDigit := rfl

/-- A round that meets an invalid digit fails, whatever was built so far. -/
theorem hexShiftIn_of_invalid (acc : HexResult U32) {b : Byte} (hb : hexDigitToValue b = .invalidHexDigit) :
    hexShiftIn acc b = .invalidHexDigit := by
  cases acc with
  | ok v => simp only [hexShiftIn, hb]
  | invalidHexDigit => rfl

section
variable {p0 p1 p2 : Byte}

theorem hexDigitsToU32_eq_ok {x y z : Nibble} (h0 : hexDigitToValue p0 = .ok x) (h1 : hexDigitToValue p1 = .ok y)
    (h2 : hexDigitToValue p2 = .ok z) : hexDigitsToU32 p0 p1 p2 = .ok ((x ++ y ++ z).setWidth 32) := by
  have hfirst : hexShiftIn (.ok 0#32) p0 = .ok (x.setWidth 32) := by simp [hexShiftIn, h0]
  rw [hexDigitsToU32, hfirst, hexShiftIn_ok x h1, hexShiftIn_ok (x ++ y) h2]

theorem hexDigitsToU32_eq_invalid (h : hexDigitToValue p0 = .invalidHexDigit ∨ hexDigitToValue p1 = .invalidHexDigit ∨
    hexDigitToValue p2 = .invalidHexDigit) : hexDigitsToU32 p0 p1 p2 = .invalidHexDigit := by
  rw [hexDigitsToU32]
  rcases h with h | h | h
  · rw [hexShiftIn_of_invalid _ h, hexShiftIn_invalid, hexShiftIn_invalid]
  · rw [hexShiftIn_of_invalid _ h, hexShiftIn_invalid]
  · exact hexShiftIn_of_invalid _ h

end

/-- Three nibbles in 32 bits, most significant first: no bit is lost. -/
theorem toNat_three_nibbles (x y z : Nibble) :
    ((x ++ y ++ z).setWidth 32 : U32).toNat = 256 * x.toNat + 16 * y.toNat + z.toNat := by
  rw [BitVec.toNat_setWidth_of_le (by decide), toNat_append_nibble, toNat_append_nibble]
  omega

/-- Settles O3: each round appends a digit's nibble, most significant digit first. -/
theorem threeHexDigitsMakeU32 : Obligations.ThreeHexDigitsMakeU32 :=
  fun _ _ _ s => ⟨_, _, rfl, onlyReturns_retire s _,
    fun x y z h0 h1 h2 => ⟨_, hexDigitsToU32_eq_ok h0 h1 h2, toNat_three_nibbles x y z⟩, hexDigitsToU32_eq_invalid⟩

/-! ## A number to digits (40 R104, R105) -/

/-- The `n` bits from `k` on, by division. -/
theorem setWidth_shiftRight_eq_ofNat {w : Nat} (v : BitVec w) (k n : Nat) :
    (v >>> k).setWidth n = BitVec.ofNat n (v.toNat / 2 ^ k) := by
  rw [← BitVec.ofNat_toNat, BitVec.toNat_ushiftRight, Nat.shiftRight_eq_div_pow]

theorem u32ToThreeHexDigits_eq (v : U32) : u32ToThreeHexDigits v =
    [valueToHexDigit (BitVec.ofNat 4 (v.toNat / 2 ^ 8)), valueToHexDigit (BitVec.ofNat 4 (v.toNat / 2 ^ 4)),
      valueToHexDigit (BitVec.ofNat 4 v.toNat)] := by
  rw [u32ToThreeHexDigits, setWidth_shiftRight_eq_ofNat, setWidth_shiftRight_eq_ofNat, BitVec.ofNat_toNat]

/-- Settles O5: each nibble is a quotient in 4 bits. -/
theorem u32MakesThreeDigits : Obligations.U32MakesThreeDigits :=
  fun v s => ⟨_, rfl, u32ToThreeHexDigits_eq v ▸ onlyReturns_retire s _⟩

/-- Settles O6: the pair of each byte is `bytesToHex_getElem?`, an induction over the bytes. -/
theorem bytesMakeDigitPairs : Obligations.BytesMakeDigitPairs := by
  refine fun d s => ⟨_, _, rfl, onlyReturns_retire s _, bytesToHex_length d, fun k b h => ?_⟩
  have hhigh : (b >>> 4).setWidth 4 = BitVec.ofNat 4 (b.toNat / 16) := setWidth_shiftRight_eq_ofNat b 4 4
  rw [BitVec.ofNat_toNat, ← hhigh]
  exact bytesToHex_getElem? h

/-! ## Inverse laws (40 R107) -/

/-- The three digits' nibbles are the low 12 bits. -/
theorem three_nibbles_append (v : U32) :
    ((v >>> 8).setWidth 4 ++ (v >>> 4).setWidth 4 ++ v.setWidth 4 : BitVec 12).setWidth 32 = v &&& 0xFFF#32 := by
  have hhigh : ((v >>> 8).setWidth 4 ++ (v >>> 4).setWidth 4 : BitVec 8) = (v >>> 4).setWidth 8 := by
    rw [← setWidth_shiftRight_append_setWidth (v >>> 4) 4 4, ← BitVec.shiftRight_add]
  have hlow : (v.setWidth 12).setWidth 32 = v &&& 0xFFF#32 := by
    refine BitVec.eq_of_toNat_eq ?_
    rw [BitVec.toNat_and, BitVec.toNat_setWidth_of_le (by decide), BitVec.toNat_setWidth]
    exact (Nat.and_two_pow_sub_one_eq_mod _ 12).symm
  rw [hhigh, setWidth_shiftRight_append_setWidth v 8 4, hlow]

/-- Settles O7: every digit reads back as its nibble, and the nibbles of a number, appended, are its low bits. -/
theorem hexInverseLaws : Obligations.HexInverseLaws := by
  refine ⟨fun b => ⟨_, _, rfl, ?_⟩, hexDigitToValue_valueToHexDigit, fun v => ⟨_, _, _, rfl, ?_⟩⟩
  · rw [twoHexDigitsToByte_eq_ok (hexDigitToValue_valueToHexDigit _) (hexDigitToValue_valueToHexDigit _),
      byte_nibbles_append]
  · rw [hexDigitsToU32_eq_ok (hexDigitToValue_valueToHexDigit _) (hexDigitToValue_valueToHexDigit _)
      (hexDigitToValue_valueToHexDigit _), three_nibbles_append]

end Sys2Proof.Machine

/-! PROOFS. 41_frame_encoder: the lines of the formatter, the length law, and the round trip of an encoded line through
the accumulator and the decoder. -/

namespace Sys2Proof.Machine

/-! ## What the formatter returns (41 R120, R122-R124) -/

section
variable {id : U32} {data : Bytes}

theorem encodeTransmit_eq_ok (h : data.length ≤ 8) : encodeTransmit id data = .ok (transmitLine id data) :=
  if_neg (Nat.not_lt.mpr h)

theorem encodeTransmit_eq_invalidLength (h : 8 < data.length) : encodeTransmit id data = .invalidLength :=
  if_pos h

end

/-- Settles O8: ENCODE_T retires with the answer of `encodeTransmit`, which the length decides. -/
theorem encodeTransmitReturnsLine : Obligations.EncodeTransmitReturnsLine := by
  refine fun id data s => ⟨fun h => ⟨_, rfl, ?_⟩, fun h => ⟨_, rfl, ?_⟩⟩
  · rw [encodeTransmit_eq_ok h]
    exact onlyReturns_retire s _
  · rw [encodeTransmit_eq_invalidLength h]
    exact onlyReturns_retire s _

/-- Settles O10: both operations retire with their fixed line. -/
theorem fixedCommandLines : Obligations.FixedCommandLines :=
  fun s => ⟨⟨_, rfl, onlyReturns_retire s _⟩, _, rfl, onlyReturns_retire s _⟩

/-- Settles O11: SETUP retires with its line, and the nine codes are read off the table. -/
theorem setupCommandLine : Obligations.SetupCommandLine :=
  ⟨fun _ s => ⟨_, rfl, onlyReturns_retire s _⟩, by decide⟩

/-! ## A transmit line without its terminator (30 R63) -/

/-- The transmit line up to its CR: what the accumulator hands to the decoder. -/
def transmitBody (id : U32) (data : Bytes) : Bytes :=
  charT :: u32ToThreeHexDigits id ++ [valueToHexDigit (BitVec.ofNat 4 data.length)] ++ bytesToHex data

section
variable (id : U32) (data : Bytes)

theorem transmitLine_eq_body_append_cr : transmitLine id data = transmitBody id data ++ [cr] := rfl

@[simp] theorem transmitBody_length : (transmitBody id data).length = 5 + 2 * data.length := by
  simp [transmitBody, u32ToThreeHexDigits]; omega

/-- The command letter and hex digits are no terminators. -/
theorem noTerminator_transmitBody : NoTerminator (transmitBody id data) := by
  intro b hb
  simp only [transmitBody, u32ToThreeHexDigits, List.cons_append, List.nil_append, List.mem_cons] at hb
  rcases hb with rfl | rfl | rfl | rfl | rfl | hb
  · rfl
  · exact isTerminator_valueToHexDigit _
  · exact isTerminator_valueToHexDigit _
  · exact isTerminator_valueToHexDigit _
  · exact isTerminator_valueToHexDigit _
  · obtain ⟨n, rfl⟩ := mem_bytesToHex hb
    exact isTerminator_valueToHexDigit n

end

/-- Settles O9: the line is its body and a CR, and the body holds no terminator. -/
theorem encodedLineLength : Obligations.EncodedLineLength := by
  intro id data out h
  obtain ⟨-, rfl⟩ := encodeTransmit_ok h
  refine ⟨transmitLine_length id data, List.getLast?_concat, fun i hi hcr => ?_⟩
  have hbody : i < (transmitBody id data).length := by
    rw [transmitLine_length] at hi
    rw [transmitBody_length]
    omega
  rw [transmitLine_eq_body_append_cr, List.getElem?_append_left hbody] at hcr
  have hnot : isTerminator cr = false := noTerminator_transmitBody id data cr (List.mem_of_getElem? hcr)
  exact absurd hnot (by decide)

/-! ## The decoder's stages over that body (43 R160, R162-R166) -/

/-- A `t` line that passes every stage is the frame of its fields. -/
theorem decodeLine_of_stages {l d : Bytes} {id : U32} {dlc : Fin 9} (hcmd : byteAt l 0 = charT)
    (hid : lineId l = .ok id) (hdlc : lineDlc l = some dlc) (hlen : 5 + 2 * dlc.val ≤ l.length)
    (hdata : lineData l dlc.val = .ok d) : decodeLine l = .frame ⟨id, dlc, padData d⟩ := by
  simp [decodeLine, hcmd, hid, hdlc, Nat.not_lt.mpr hlen, hdata]

/-- Where each byte of `d` is a data byte of the line, the data stage collects them in order. -/
theorem lineData_eq_take {l d : Bytes} (h : ∀ k b, d[k]? = some b → lineDataByte l k = .ok b) {n : Nat}
    (hn : n ≤ d.length) : lineData l n = .ok (d.take n) := by
  induction n with
  | zero => rfl
  | succ n ih =>
    have hbyte : lineDataByte l n = .ok d[n] := h n d[n] (List.getElem?_eq_getElem hn)
    simp only [lineData, ih (Nat.le_of_succ_le hn), hbyte, List.take_append_getElem]

section
variable (id : U32) (data : Bytes)

/-- The data field stands behind the five bytes before it. -/
theorem byteAt_transmitBody (i : Nat) :
    byteAt (transmitBody id data) (i + 5) = (bytesToHex data).getD i 0#8 := rfl

theorem lineId_transmitBody : lineId (transmitBody id data) = .ok (id &&& 0xFFF#32) := by
  rw [← three_nibbles_append]
  exact hexDigitsToU32_eq_ok (hexDigitToValue_valueToHexDigit _) (hexDigitToValue_valueToHexDigit _)
    (hexDigitToValue_valueToHexDigit _)

variable {data}

theorem lineDlc_transmitBody (h : data.length ≤ 8) :
    lineDlc (transmitBody id data) = some ⟨data.length, Nat.lt_succ_of_le h⟩ := by
  have hdigit : (byteAt (transmitBody id data) 4).toNat = 0x30 + data.length := by
    change (valueToHexDigit (BitVec.ofNat 4 data.length)).toNat = _
    rw [toNat_valueToHexDigit, toNat_dlc h, if_pos (Nat.le_succ_of_le h)]
  have hrange : 0x30 ≤ 0x30 + data.length ∧ 0x30 + data.length ≤ 0x38 := by omega
  simp only [lineDlc, hdigit, dif_pos hrange, Nat.add_sub_cancel_left]

theorem lineDataByte_transmitBody {k : Nat} {b : Byte} (hb : data[k]? = some b) :
    lineDataByte (transmitBody id data) k = .ok b := by
  obtain ⟨hhigh, hlow⟩ := bytesToHex_getElem? hb
  rw [lineDataByte, Nat.add_comm 5, byteAt_transmitBody, show 6 + 2 * k = 2 * k + 1 + 5 by omega, byteAt_transmitBody,
    List.getD_eq_getElem?_getD, List.getD_eq_getElem?_getD, hhigh, hlow, Option.getD_some, Option.getD_some,
    twoHexDigitsToByte_eq_ok (hexDigitToValue_valueToHexDigit _) (hexDigitToValue_valueToHexDigit _),
    byte_nibbles_append]

/-- The decoder reads back what the formatter wrote (43 R170). -/
theorem decodeLine_transmitBody (h : data.length ≤ 8) : decodeLine (transmitBody id data) =
    .frame ⟨id &&& 0xFFF#32, ⟨data.length, Nat.lt_succ_of_le h⟩, padData data⟩ := by
  refine decodeLine_of_stages rfl (lineId_transmitBody id data) (lineDlc_transmitBody id h) ?_ ?_
  · exact Nat.le_of_eq (transmitBody_length id data).symm
  · rw [lineData_eq_take (fun _ _ => lineDataByte_transmitBody id) (Nat.le_refl data.length), List.take_length]

end

/-! ## The round trip (42 R146, 43 R170) -/

/-- What AccDecode makes of an output of AccStep (42 R146). -/
def decodeOut : AccOut → AccDecodeOut
  | .pending => .pending
  | .line l => .decoded (decodeLine l)

theorem accDecode_eq_decodeOut (cap : Nat) (b : Byte) (a : LineAcc) :
    (accDecode cap b a).1 = decodeOut (accStep cap b a).1 := accDecode_out cap b a

/-- AccDecode's outputs are AccStep's with the lines decoded, over any number of bytes. -/
theorem feedDecode_eq_map_decodeOut (cap : Nat) (bs : Bytes) (a : LineAcc) :
    (feedDecode cap bs a).1 = (feedStep cap bs a).1.map decodeOut := by
  induction bs generalizing a with
  | nil => rfl
  | cons b bs ih => simp only [feedDecode, feedStep, List.map_cons, accDecode_eq_decodeOut, accDecode_acc, ih]

/-- Settles O27: the accumulator hands over the body exactly as it was fed (`lineHandedOverAsFed`), and the decoder reads
it back (`decodeLine_transmitBody`). A body of at most 21 bytes fits every MAX_LINE. -/
theorem encodeThenAccDecodeRoundTrip : Obligations.EncodeThenAccDecodeRoundTrip := by
  intro cap id data line a hcap hcount herr henc
  obtain ⟨hdata, rfl⟩ := encodeTransmit_ok henc
  have hlen : (transmitBody id data).length = 5 + 2 * data.length := transmitBody_length id data
  have hfed : (feedStep cap (transmitBody id data ++ [cr]) a).1 =
      List.replicate (transmitBody id data).length .pending ++ [.line (transmitBody id data)] :=
    lineHandedOverAsFed cap (transmitBody id data) cr a hcount herr (noTerminator_transmitBody id data) rfl (by omega)
      (by omega)
  refine ⟨⟨id &&& 0xFFF#32, ⟨data.length, Nat.lt_succ_of_le hdata⟩, padData data⟩, ?_, rfl, rfl, padData_getElem data⟩
  rw [transmitLine_eq_body_append_cr, feedDecode_eq_map_decodeOut, hfed, List.map_append, List.map_replicate,
    List.map_singleton, decodeOut, decodeOut, decodeLine_transmitBody id hdata, List.length_append, List.length_singleton,
    Nat.add_sub_cancel]

end Sys2Proof.Machine

/-! PROOFS. 42_line_accumulator: the four transitions and their dispatch, the accumulator's invariant, and what a line of
data bytes and its terminator give. -/

namespace Sys2Proof.Machine

/-! ## The byte classes and a line's validity (30 R61, 42 R142) -/

theorem isTerminator_iff (b : Byte) : isTerminator b = true ↔ b = 0x0D#8 ∨ b = 0x07#8 := by
  simp [isTerminator, cr, bel]

theorem isTerminator_eq_false {b : Byte} (hcr : b ≠ 0x0D#8) (hbel : b ≠ 0x07#8) : isTerminator b = false :=
  Bool.eq_false_iff.mpr fun h => ((isTerminator_iff b).mp h).elim hcr hbel

theorem lineValid_iff (a : LineAcc) : lineValid a = true ↔ a.err = false ∧ minLine ≤ a.count := by
  simp [lineValid, filling]

theorem accEnd_eq_pending {a : LineAcc} (h : ¬ (a.err = false ∧ minLine ≤ a.count)) : (accEnd a).1 = .pending :=
  if_neg (mt (lineValid_iff a).mp h)

/-! ## AccStep under each rule's condition (42 R140, R144, R145) -/

section
variable {cap : Nat} {b : Byte} {a : LineAcc}

theorem accStep_eq_accOverflow (hb : isTerminator b = false) (herr : a.err = false) (hcap : cap ≤ a.count) :
    accStep cap b a = accOverflow a := by
  simp [accStep, filling, hb, herr, Nat.not_lt.mpr hcap]

theorem accStep_eq_accDrop (hb : isTerminator b = false) (herr : a.err = true) : accStep cap b a = accDrop a := by
  simp [accStep, filling, hb, herr]

/-- Only a terminator yields a line. -/
theorem accStep_data_out (hb : isTerminator b = false) : (accStep cap b a).1 = .pending := by
  rcases accStep_cases cap b a with ⟨ht, -⟩ | ⟨-, -, -, h⟩ | ⟨-, -, -, h⟩ | ⟨-, -, h⟩
  · simp [hb] at ht
  all_goals rw [h]; rfl

theorem accDecode_data_out (hb : isTerminator b = false) : (accDecode cap b a).1 = .pending := by
  rw [accDecode_out, accStep_data_out hb]

/-- A line is the first `count` bytes of a valid line that a terminator ended (42 R141, R142). -/
theorem accStep_eq_line {l : Bytes} (h : (accStep cap b a).1 = .line l) :
    isTerminator b = true ∧ a.err = false ∧ minLine ≤ a.count ∧ l = bufLine a a.count := by
  have hb : isTerminator b = true := by
    cases hb : isTerminator b with
    | true => rfl
    | false => rw [accStep_data_out hb] at h; cases h
  rw [accStep_eq_accEnd hb] at h
  by_cases hv : a.err = false ∧ minLine ≤ a.count
  · obtain ⟨herr, hmin⟩ := hv
    rw [accEnd_eq_line herr hmin] at h
    cases h
    exact ⟨hb, herr, hmin, rfl⟩
  · rw [accEnd_eq_pending hv] at h
    cases h

/-- One byte makes the line longer by at most one (42 R141, R143-R145). -/
theorem accStep_count_le : (accStep cap b a).2.count ≤ a.count + 1 := by
  rcases accStep_cases cap b a with ⟨-, h⟩ | ⟨-, -, -, h⟩ | ⟨-, -, -, h⟩ | ⟨-, -, h⟩ <;> rw [h]
  · exact Nat.zero_le _
  · exact Nat.le_refl _
  · exact Nat.le_succ _
  · exact Nat.le_succ _

end

/-! ## The accumulator's invariant (10 R22, R23) -/

/-- `AccInv` of an accumulator, with `MAX_LINE = cap`. -/
def AccBounded (cap : Nat) (a : LineAcc) : Prop :=
  a.count ≤ cap ∧ (a.err = true → a.count = cap) ∧ Memory.wf a.buf ∧ ∀ c ∈ a.buf, c.1 < cap

theorem accInv_iff (s : State) : AccInv s ↔ AccBounded s.maxLine s.acc := Iff.rfl

theorem accBounded_empty (cap fill : Nat) : AccBounded cap ⟨[], fill, 0, false⟩ :=
  ⟨Nat.zero_le cap, nofun, List.Pairwise.nil, nofun⟩

section
variable {cap : Nat} {a : LineAcc} (h : AccBounded cap a)
include h

theorem accBounded_accEnd : AccBounded cap (accEnd a).2 := by
  obtain ⟨-, -, hwf, hbelow⟩ := h
  exact ⟨Nat.zero_le cap, nofun, hwf, hbelow⟩

theorem accBounded_accAppend (herr : a.err = false) (hcap : a.count < cap) (b : Byte) :
    AccBounded cap (accAppend b a).2 := by
  obtain ⟨-, -, hwf, hbelow⟩ := h
  have hflag : (accAppend b a).2.err = false := herr
  exact ⟨hcap, by simp [hflag], memStore_wf hwf a.count b, memStore_below hbelow hcap⟩

theorem accBounded_accOverflow (hcap : cap ≤ a.count) : AccBounded cap (accOverflow a).2 := by
  obtain ⟨hcount, -, hwf, hbelow⟩ := h
  exact ⟨hcount, fun _ => Nat.le_antisymm hcount hcap, hwf, hbelow⟩

/-- Each transition keeps the bounds under the condition that AccStep selects it by. -/
theorem accBounded_accStep (b : Byte) : AccBounded cap (accStep cap b a).2 := by
  rcases accStep_cases cap b a with ⟨-, hs⟩ | ⟨-, herr, hcap, hs⟩ | ⟨-, -, hcap, hs⟩ | ⟨-, -, hs⟩ <;> rw [hs]
  · exact accBounded_accEnd h
  · exact accBounded_accAppend h herr hcap b
  · exact accBounded_accOverflow h hcap
  · exact h

end

/-- Settles O48: by `step_acc` a step keeps the accumulator, takes one AccStep on it, or makes an empty one; MAX_LINE is
fixed. -/
theorem stepKeepsAccumulatorInvariant : Obligations.StepKeepsAccumulatorInvariant := by
  refine ⟨accInv_reset, fun s t hs h => ?_⟩
  obtain ⟨hmax, -⟩ := maxLineIsFixed s t h
  rw [accInv_iff] at hs ⊢
  rw [hmax]
  rcases step_acc h with hacc | ⟨b, hacc⟩ | ⟨n, hacc⟩ <;> rw [hacc]
  · exact hs
  · exact accBounded_accStep hs b
  · exact accBounded_empty s.maxLine n

/-! ## AccDecode and lines (42 R146-R149) -/

/-- Settles O19: AccDecode decodes AccStep's output, and `accStep_eq_line` says where a line comes from. -/
theorem accDecodeComposesStepAndDecode : Obligations.AccDecodeComposesStepAndDecode := by
  refine fun cap b a => ⟨accDecode_acc cap b a, fun h => by rw [accDecode_out, h], fun l h => ?_⟩
  obtain ⟨hb, herr, hmin, hl⟩ := accStep_eq_line h
  have hlen : l.length = a.count := by rw [hl, bufLine_length]
  exact ⟨by rw [accDecode_out, h], hlen ▸ hmin, hb, herr, fun hcap => hlen ▸ hcap⟩

/-- Accumulators that differ at most in stale bytes give the same outputs on any bytes. -/
theorem sameOutput_feedDecode (cap : Nat) (bs : Bytes) {a a' : LineAcc} (h : AgreeBelowCount a a') :
    SameOutput (feedDecode cap bs a) (feedDecode cap bs a') := by
  induction bs generalizing a a' with
  | nil => exact ⟨rfl, h⟩
  | cons b bs ih =>
    obtain ⟨hout, hacc⟩ := sameOutput_accDecode h cap b
    obtain ⟨houts, hleft⟩ := ih hacc
    exact ⟨List.cons_eq_cons.mpr ⟨hout, houts⟩, hleft⟩

/-- Settles O20: a terminator is ACC_END, and with count 0 every byte of the buffer is stale. -/
theorem lineIsolation : Obligations.LineIsolation := by
  constructor
  · intro cap b a hb
    rw [accDecode_acc, accStep_eq_accEnd hb]
    exact ⟨rfl, rfl⟩
  · intro cap bs a a' hcount herr hcount' herr'
    have hagree : AgreeBelowCount a a' :=
      ⟨hcount'.trans hcount.symm, herr'.trans herr.symm, fun i hi => by omega⟩
    exact (sameOutput_feedDecode cap bs hagree).1.symm

section
variable {cap : Nat} {bs : Bytes} (hbs : NoTerminator bs)
include hbs

/-- Data bytes give Pending alone. -/
theorem feedDecode_data_out (a : LineAcc) : (feedDecode cap bs a).1 = List.replicate bs.length .pending := by
  induction bs generalizing a with
  | nil => rfl
  | cons b bs ih =>
    obtain ⟨hb, hbs⟩ := List.forall_mem_cons.mp hbs
    exact List.cons_eq_cons.mpr ⟨accDecode_data_out hb, ih hbs _⟩

/-- A line's outputs are Pending for its data bytes and what ACC_END makes of the accumulator they leave. -/
theorem feedDecode_line {e : Byte} (he : isTerminator e = true) (a : LineAcc) :
    feedDecode cap (bs ++ [e]) a =
      (List.replicate bs.length .pending ++ [decodeOut (accEnd (feedDecode cap bs a).2).1],
        (accEnd (feedDecode cap bs a).2).2) := by
  rw [feedDecode_append, feedDecode_data_out hbs]
  simp only [feedDecode, accDecode_eq_decodeOut, accDecode_acc, accStep_eq_accEnd he]

/-- A line that its data bytes leave Errored or too short is absorbed (42 R142). -/
theorem feedDecode_line_absorbed {e : Byte} (he : isTerminator e = true) {a : LineAcc}
    (hv : ¬ ((feedDecode cap bs a).2.err = false ∧ minLine ≤ (feedDecode cap bs a).2.count)) :
    (feedDecode cap (bs ++ [e]) a).1 = List.replicate (bs.length + 1) .pending := by
  rw [feedDecode_line hbs he, accEnd_eq_pending hv, List.replicate_succ']
  rfl

/-- Once Errored, data bytes change nothing (42 R145). -/
theorem feedDecode_data_errored {a : LineAcc} (herr : a.err = true) : (feedDecode cap bs a).2 = a := by
  induction bs with
  | nil => rfl
  | cons b bs ih =>
    obtain ⟨hb, hbs⟩ := List.forall_mem_cons.mp hbs
    have hdrop : (accDecode cap b a).2 = a := by rw [accDecode_acc, accStep_eq_accDrop hb herr]; rfl
    simp only [feedDecode, hdrop]
    exact ih hbs

/-- Data bytes set Errored exactly when they outgrow MAX_LINE (42 R143, R144). -/
theorem feedDecode_data_err {a : LineAcc} (herr : a.err = false) (hcount : a.count ≤ cap) :
    (feedDecode cap bs a).2.err = true ↔ cap < a.count + bs.length := by
  induction bs generalizing a with
  | nil => simp [feedDecode, herr, hcount]
  | cons b bs ih =>
    obtain ⟨hb, hbs⟩ := List.forall_mem_cons.mp hbs
    simp only [feedDecode, accDecode_acc, List.length_cons]
    rcases Nat.lt_or_ge a.count cap with hcap | hcap
    · have hlonger : (accAppend b a).2.count = a.count + 1 := rfl
      rw [accStep_eq_accAppend hb herr hcap, ih hbs (a := (accAppend b a).2) herr hcap, hlonger, Nat.succ_add_eq_add_succ]
    · rw [accStep_eq_accOverflow hb herr hcap, feedDecode_data_errored hbs rfl]
      exact iff_of_true rfl (by omega)

end

/-- Each byte makes the line longer by at most one. -/
theorem feedDecode_count_le (cap : Nat) (bs : Bytes) (a : LineAcc) :
    (feedDecode cap bs a).2.count ≤ a.count + bs.length := by
  induction bs generalizing a with
  | nil => exact Nat.le_refl _
  | cons b bs ih =>
    have hone : (accDecode cap b a).2.count ≤ a.count + 1 := by rw [accDecode_acc]; exact accStep_count_le
    have hrest := ih (accDecode cap b a).2
    simp only [feedDecode, List.length_cons]
    omega

/-- Settles O21: `feedDecode_data_err` from an empty line gives the flag; a line it finds Errored is absorbed, and one of
MAX_LINE bytes is handed over (`lineHandedOverAsFed`). -/
theorem overflowedLineIsNeverDecoded : Obligations.OverflowedLineIsNeverDecoded := by
  intro cap bs e a hcap hcount herr hbs he
  have hflag {ds : Bytes} (hds : NoTerminator ds) : (feedDecode cap ds a).2.err = true ↔ cap < ds.length := by
    rw [feedDecode_data_err hds herr (by omega), hcount, Nat.zero_add]
  refine ⟨fun k hk => ?_, fun hlen => ?_, fun hlen => ?_⟩
  · rw [hflag fun b hb => hbs b (List.mem_of_mem_take hb), List.length_take_of_le hk]
  · exact feedDecode_line_absorbed hbs he fun ⟨hfill, _⟩ => by simp [(hflag hbs).mpr hlen] at hfill
  · rw [feedDecode_eq_map_decodeOut, lineHandedOverAsFed cap bs e a hcount herr hbs he (by omega) (Nat.le_of_eq hlen),
      List.map_append, List.map_replicate]
    rfl

/-- Settles O22: at most 4 bytes leave a count below MIN_LINE, so the line is absorbed, and ACC_END resets. -/
theorem shortLineIsAbsorbed : Obligations.ShortLineIsAbsorbed := by
  intro cap bs e a hcount _ hbs he hlen
  have hshort : ¬ minLine ≤ (feedDecode cap bs a).2.count := by
    have hle := feedDecode_count_le cap bs a
    unfold minLine
    omega
  refine ⟨feedDecode_line_absorbed hbs he fun ⟨_, hmin⟩ => hshort hmin, ?_⟩
  rw [feedDecode_line hbs he]
  exact ⟨rfl, rfl⟩

/-! ## The accumulator after READ (60 R208) -/

@[simp] theorem rxTransact_acc (s : State) : (rxTransact s).2.acc = s.acc := by rw [rxTransact_eq]

@[simp] theorem rxTransact_results (s : State) : (rxTransact s).2.results = s.results := by rw [rxTransact_eq]

/-- READ returns nothing at a data byte. -/
theorem readByte_data_results {b : Byte} (hb : isTerminator b = false) (s : State) :
    (readByte b s).results = s.results := by
  have hout : (accDecode s.maxLine b s.acc).1 = .pending := accDecode_data_out hb
  unfold readByte
  generalize accDecode s.maxLine b s.acc = p at hout ⊢
  obtain ⟨o, a⟩ := p
  cases hout
  rfl

/-- Settles O37: a READ that returned at a byte consumed a terminator, which is ACC_END; without a byte the transaction
leaves the accumulator alone. -/
theorem accumulatorAfterRead : Obligations.AccumulatorAfterRead := by
  intro s t h hret
  rw [exec, execHostRead_eq] at h
  obtain ⟨-, h⟩ := ifSocket_next h
  cases h
  cases hrx : nextRx s with
  | byte b =>
    simp only [hrx] at hret ⊢
    refine ⟨fun _ => ?_, fun hno => (hno ⟨b, rfl⟩).elim⟩
    cases hb : isTerminator b with
    | false => exact (hret ((readByte_data_results hb _).trans (rxTransact_results s))).elim
    | true =>
      rw [readByte_acc, accStep_eq_accEnd hb]
      exact ⟨rfl, rfl⟩
  | empty => exact ⟨nofun, fun _ => rxTransact_acc s⟩
  | fail e => exact ⟨nofun, fun _ => rxTransact_acc s⟩

/-! ## A transition as an operation (30 R76, 70 R232) -/

section
variable {sel : Bool} {s : State} (hl : Live s) (o : AccOut × LineAcc)
include hl

/-- A selected transition sets the accumulator, returns its output and changes nothing else. -/
theorem runTransition_selected (hsel : sel = true) : ∃ t, runTransition sel o s = .next t ∧ t.acc = o.2 ∧
    Returns s t (.acc o.1) ∧ SameTransport s t ∧ SameSocket s t := by
  refine ⟨retire (.acc o.1) { s with acc := o.2 }, ?_, rfl, ⟨rfl, rfl⟩, ⟨rfl, rfl, rfl⟩, ⟨rfl, rfl⟩⟩
  rw [runTransition, ifSocket_live hl, if_pos hsel]

theorem runTransition_refused (hsel : sel = false) : runTransition sel o s = .refused .notSelected := by
  rw [runTransition, ifSocket_live hl, if_neg (by simp [hsel])]

end

/-- Settles O12: ACC_END is selected for a terminator, and its output is the line exactly when that is valid. -/
theorem terminatorEndsLine : Obligations.TerminatorEndsLine := by
  intro b s hb hl
  obtain ⟨t, hexec, hacc, hret, htr, hso⟩ := runTransition_selected hl (accEnd s.acc) ((isTerminator_iff b).mpr hb)
  refine ⟨_, t, hexec, hret, ?_, ?_, ?_, htr, hso, ?_, accEnd_eq_pending⟩
  · rw [hacc]; rfl
  · rw [hacc]; rfl
  · intro i; rw [hacc]; rfl
  · rintro ⟨herr, hmin⟩
    refine ⟨_, accEnd_eq_line herr hmin, bufLine_length _ _, fun i hi => ?_⟩
    simp [bufLine, hi]

/-- Settles O13: ACC_APPEND is selected, and `bufRead_accAppend` says what each cell holds after it. -/
theorem appendStoresByteAtCount : Obligations.AppendStoresByteAtCount := by
  intro b s hcr hbel hl herr hroom
  have hb : isTerminator b = false := isTerminator_eq_false hcr hbel
  obtain ⟨t, hexec, hacc, hret, htr, hso⟩ := runTransition_selected hl (accAppend b s.acc)
    (sel := !isTerminator b && filling s.acc && decide (s.acc.count < s.maxLine)) (by simp [hb, filling, herr, hroom])
  refine ⟨t, hexec, hret, ?_, ?_, ?_, fun i hi => ?_, htr, hso⟩ <;> rw [hacc]
  · rfl
  · exact herr
  · rw [bufRead_accAppend, if_pos rfl]
  · rw [bufRead_accAppend, if_neg (Ne.symm hi)]

/-- Settles O14: ACC_OVERFLOW is selected, and it writes the flag alone. -/
theorem overflowSetsErrored : Obligations.OverflowSetsErrored := by
  intro b s hcr hbel hl herr hfull
  have hb : isTerminator b = false := isTerminator_eq_false hcr hbel
  obtain ⟨t, hexec, hacc, hret, htr, hso⟩ := runTransition_selected hl (accOverflow s.acc)
    (sel := !isTerminator b && filling s.acc && decide (s.maxLine ≤ s.acc.count)) (by simp [hb, filling, herr, hfull])
  refine ⟨t, hexec, hret, ?_, ?_, fun i => ?_, htr, hso⟩ <;> rw [hacc]
  · rfl
  · exact hfull
  · rfl

/-- Settles O15: ACC_DROP is selected, and it leaves the accumulator it finds. -/
theorem dropChangesNothing : Obligations.DropChangesNothing := by
  intro b s hcr hbel hl herr
  have hb : isTerminator b = false := isTerminator_eq_false hcr hbel
  obtain ⟨t, hexec, hacc, hret, htr, hso⟩ := runTransition_selected hl (accDrop s.acc)
    (sel := !isTerminator b && errored s.acc) (by simp [hb, errored, herr])
  refine ⟨t, hexec, hret, ?_, htr, hso⟩
  rw [SameAcc, hacc]
  exact ⟨rfl, rfl, fun _ => rfl⟩

/-! ## Dispatch (42 R140, 90 C8) -/

/-- The step on an AccStep request runs what the opcode map selects. -/
theorem step_accStep {b : Byte} {s : State} {rest : List Request} (h : s.program = .accStep b :: rest) :
    step s = exec (selectAcc s.acc.err s.acc.count s.maxLine b) s :=
  step_eq_exec_of_fetch (by rw [fetch, h]; rfl)

/-- Settles O16: each clause is the opcode map under that clause's condition. -/
theorem accStepRunsSelectedTransition : Obligations.AccStepRunsSelectedTransition := by
  intro b s rest hprog
  rw [step_accStep hprog]
  refine ⟨fun hb => ?_, fun hcr hbel herr hcap => ?_, fun hcr hbel herr hcap => ?_, fun hcr hbel herr => ?_⟩
  · rw [selectAcc_eq_accEnd _ _ _ ((isTerminator_iff b).mpr hb)]
  · rw [herr, selectAcc_eq_accAppend _ _ (isTerminator_eq_false hcr hbel) hcap]
  · rw [herr, selectAcc_eq_accOverflow _ _ (isTerminator_eq_false hcr hbel) hcap]
  · rw [herr, selectAcc_eq_accDrop _ _ (isTerminator_eq_false hcr hbel)]

/-- Settles O17: outside its condition a transition is not selected, and a decoder operation's test fails. -/
theorem unselectedOperationIsRefused : Obligations.UnselectedOperationIsRefused := by
  intro b l s hl
  refine ⟨fun h => ?_, fun h => ?_, fun h => ?_, fun h => ?_, fun h => ?_, fun h => ?_⟩
  · exact runTransition_refused hl _ h
  · refine runTransition_refused hl _ ?_
    rcases h with h | h | h <;> simp [filling, h]
  · refine runTransition_refused hl _ ?_
    rcases h with h | h | h <;> simp [filling, h]
  · refine runTransition_refused hl _ ?_
    rcases h with h | h <;> simp [errored, h]
  · exact if_neg fun ⟨hlen, ht⟩ => h.elim (Nat.not_lt.mpr hlen) (· ht)
  · exact if_neg fun ⟨hlen, ht⟩ => h.elim (Nat.not_lt.mpr hlen) ht

/-- Settles O18: both bytes are terminators, and ACC_END does not read its byte. -/
theorem crAndBelAlike : Obligations.CrAndBelAlike := by
  have hcr : isTerminator 0x0D#8 = true := rfl
  have hbel : isTerminator 0x07#8 = true := rfl
  refine ⟨fun s => ?_, fun cap a => ?_⟩
  · simp only [exec, execAccEnd, hcr, hbel]
  · rw [accStep_eq_accEnd hcr, accStep_eq_accEnd hbel]

end Sys2Proof.Machine

/-! PROOFS. 43_frame_decoder: when each stage of DecodeLine fails and what it reads, and from that when a `t` line is
malformed, the fields of its frame otherwise, and that bytes after the data field are not read. -/

namespace Sys2Proof.Machine

/-! ## The identifier stage (43 R162) -/

/-- Three digits fail exactly when one of them does. -/
theorem hexDigitsToU32_eq_invalid_iff (p0 p1 p2 : Byte) : hexDigitsToU32 p0 p1 p2 = .invalidHexDigit ↔
    hexDigitToValue p0 = .invalidHexDigit ∨ hexDigitToValue p1 = .invalidHexDigit ∨
      hexDigitToValue p2 = .invalidHexDigit := by
  refine ⟨fun h => ?_, hexDigitsToU32_eq_invalid⟩
  cases h0 : hexDigitToValue p0 with
  | invalidHexDigit => exact .inl rfl
  | ok x =>
    cases h1 : hexDigitToValue p1 with
    | invalidHexDigit => exact .inr (.inl rfl)
    | ok y =>
      cases h2 : hexDigitToValue p2 with
      | invalidHexDigit => exact .inr (.inr rfl)
      | ok z => rw [hexDigitsToU32_eq_ok h0 h1 h2] at h; cases h

theorem lineId_eq_invalid_iff (l : Bytes) : lineId l = .invalidHexDigit ↔
    ∃ i, 1 ≤ i ∧ i ≤ 3 ∧ hexDigitToValue (byteAt l i) = .invalidHexDigit := by
  rw [lineId, hexDigitsToU32_eq_invalid_iff]
  constructor
  · rintro (h | h | h)
    · exact ⟨1, by decide, by decide, h⟩
    · exact ⟨2, by decide, by decide, h⟩
    · exact ⟨3, by decide, by decide, h⟩
  · rintro ⟨i, hlow, hhigh, h⟩
    obtain rfl | rfl | rfl : i = 1 ∨ i = 2 ∨ i = 3 := by omega
    · exact .inl h
    · exact .inr (.inl h)
    · exact .inr (.inr h)

/-! ## The DLC stage (43 R163) -/

theorem lineDlc_eq_none_iff (l : Bytes) :
    lineDlc l = none ↔ ¬ (0x30 ≤ (byteAt l 4).toNat ∧ (byteAt l 4).toNat ≤ 0x38) := by
  simp [lineDlc]

theorem lineDlc_val {l : Bytes} {dlc : Fin 9} (h : lineDlc l = some dlc) : dlc.val = (byteAt l 4).toNat - 0x30 := by
  simp only [lineDlc] at h
  split at h <;> cases h
  rfl

/-! ## The data stage (43 R165) -/

/-- Two digits fail exactly when one of them does. -/
theorem twoHexDigitsToByte_eq_invalid_iff (p0 p1 : Byte) : twoHexDigitsToByte p0 p1 = .invalidHexDigit ↔
    hexDigitToValue p0 = .invalidHexDigit ∨ hexDigitToValue p1 = .invalidHexDigit := by
  refine ⟨fun h => ?_, twoHexDigitsToByte_eq_invalid⟩
  cases h0 : hexDigitToValue p0 with
  | invalidHexDigit => exact .inl rfl
  | ok hi =>
    cases h1 : hexDigitToValue p1 with
    | invalidHexDigit => exact .inr rfl
    | ok lo => rw [twoHexDigitsToByte_eq_ok h0 h1] at h; cases h

theorem lineData_succ_eq_invalid_iff (l : Bytes) (n : Nat) : lineData l (n + 1) = .invalidHexDigit ↔
    lineData l n = .invalidHexDigit ∨ lineDataByte l n = .invalidHexDigit := by
  cases h : lineData l n <;> cases hb : lineDataByte l n <;> simp [lineData, h, hb]

theorem lineData_succ_eq_ok {l d : Bytes} {n : Nat} (h : lineData l (n + 1) = .ok d) :
    ∃ d' b, lineData l n = .ok d' ∧ lineDataByte l n = .ok b ∧ d = d' ++ [b] := by
  unfold lineData at h
  split at h
  · cases h
  · split at h <;> cases h
    exact ⟨_, _, ‹_›, ‹_›, rfl⟩

/-- The data stage fails exactly when one of the `2·n` digits of its field does. -/
theorem lineData_eq_invalid_iff (l : Bytes) (n : Nat) : lineData l n = .invalidHexDigit ↔
    ∃ k, k < 2 * n ∧ hexDigitToValue (byteAt l (5 + k)) = .invalidHexDigit := by
  induction n with
  | zero => simp [lineData]
  | succ n ih =>
    have hlow : 6 + 2 * n = 5 + (2 * n + 1) := by omega
    rw [lineData_succ_eq_invalid_iff, ih, lineDataByte, twoHexDigitsToByte_eq_invalid_iff, hlow, Nat.mul_succ,
      Nat.exists_lt_succ_right, Nat.exists_lt_succ_right, or_assoc]

/-- A byte before the appended ones reads as before. -/
theorem byteAt_append_left {l : Bytes} {i : Nat} (h : i < l.length) (extra : Bytes) :
    byteAt (l ++ extra) i = byteAt l i := by
  rw [byteAt, byteAt, List.getD_eq_getElem?_getD, List.getD_eq_getElem?_getD, List.getElem?_append_left h]

/-- Each byte of the payload is the data byte of the line at its place. -/
theorem lineDataByte_of_lineData {l d : Bytes} {n k : Nat} (h : lineData l n = .ok d) (hk : k < n) :
    lineDataByte l k = .ok (byteAt d k) := by
  induction n generalizing d with
  | zero => exact (Nat.not_lt_zero k hk).elim
  | succ n ih =>
    obtain ⟨d', b, hd', hb, rfl⟩ := lineData_succ_eq_ok h
    have hlen : d'.length = n := lineData_length hd'
    rcases Nat.lt_succ_iff_lt_or_eq.mp hk with hk | rfl
    · rw [byteAt_append_left (hlen ▸ hk)]
      exact ih hd' hk
    · subst hlen
      simp [hb, byteAt]

/-! ## A malformed line (43 R162-R165) -/

/-- The named causes are the failures of the stages. -/
theorem lineMalformed_iff (l : Bytes) : LineMalformed l ↔
    lineId l = .invalidHexDigit ∨ lineDlc l = none ∨ l.length < 5 + 2 * ((byteAt l 4).toNat - 0x30) ∨
      lineData l ((byteAt l 4).toNat - 0x30) = .invalidHexDigit := by
  rw [lineId_eq_invalid_iff, lineDlc_eq_none_iff, lineData_eq_invalid_iff]
  rfl

/-- The stages of a `t` line in order: the first that fails makes it MalformedFrame, and so does nothing else. -/
theorem decodeLine_eq_malformedFrame_iff {l : Bytes} (hcmd : byteAt l 0 = charT) :
    decodeLine l = .malformedFrame ↔ LineMalformed l := by
  rw [lineMalformed_iff]
  cases hid : lineId l with
  | invalidHexDigit => simp [decodeLine, hcmd, hid]
  | ok id =>
    cases hdlc : lineDlc l with
    | none => simp [decodeLine, hcmd, hid, hdlc]
    | some dlc =>
      rw [← lineDlc_val hdlc]
      by_cases hlen : l.length < 5 + 2 * dlc.val
      · simp [decodeLine, hcmd, hid, hdlc, hlen]
      · cases hdata : lineData l dlc.val <;> simp [decodeLine, hcmd, hid, hdlc, hlen, hdata]

theorem decodeLine_eq_unsupportedCommand {l : Bytes} (hcmd : byteAt l 0 ≠ charT) :
    decodeLine l = .unsupportedCommand := if_pos (bne_iff_ne.mpr hcmd)

theorem decodeLine_ne_unsupportedCommand {l : Bytes} (hcmd : byteAt l 0 = charT) :
    decodeLine l ≠ .unsupportedCommand := by
  unfold decodeLine
  rw [if_neg (by simp [hcmd])]
  repeat' split
  all_goals nofun

theorem exists_frame_of_not_lineMalformed {l : Bytes} (hcmd : byteAt l 0 = charT) (h : ¬ LineMalformed l) :
    ∃ f, decodeLine l = .frame f := by
  cases hl : decodeLine l with
  | frame f => exact ⟨f, rfl⟩
  | malformedFrame => exact (h ((decodeLine_eq_malformedFrame_iff hcmd).mp hl)).elim
  | unsupportedCommand => exact (decodeLine_ne_unsupportedCommand hcmd hl).elim

/-! ## The fields of a decoded frame (43 R162-R166) -/

section
variable {l : Bytes} {f : CanFrame} (h : decodeLine l = .frame f)
include h

theorem byteAt_zero_of_frame : byteAt l 0 = charT := by
  refine Decidable.byContradiction fun hcmd => ?_
  rw [decodeLine_eq_unsupportedCommand hcmd] at h
  cases h

theorem frame_dlc : f.dlc.val = (byteAt l 4).toNat - 0x30 := by
  obtain ⟨-, hdlc, -⟩ := decodeLine_eq_frame h
  exact lineDlc_val hdlc

theorem frame_id {x y z : Nibble} (h1 : hexDigitToValue (byteAt l 1) = .ok x)
    (h2 : hexDigitToValue (byteAt l 2) = .ok y) (h3 : hexDigitToValue (byteAt l 3) = .ok z) :
    f.id.toNat = 256 * x.toNat + 16 * y.toNat + z.toNat := by
  obtain ⟨hid, -⟩ := decodeLine_eq_frame h
  rw [lineId, hexDigitsToU32_eq_ok h1 h2 h3, HexResult.ok.injEq] at hid
  rw [← hid, toNat_three_nibbles]

theorem frame_data {k : Fin 8} (hk : k.val < f.dlc.val) {hi lo : Nibble}
    (hhi : hexDigitToValue (byteAt l (5 + 2 * k.val)) = .ok hi)
    (hlo : hexDigitToValue (byteAt l (6 + 2 * k.val)) = .ok lo) : f.data[k].toNat = 16 * hi.toNat + lo.toNat := by
  obtain ⟨-, -, -, d, hdata, hpad⟩ := decodeLine_eq_frame h
  have hbyte : lineDataByte l k.val = .ok (byteAt d k.val) := lineDataByte_of_lineData hdata hk
  rw [lineDataByte, twoHexDigitsToByte_eq_ok hhi hlo, HexResult.ok.injEq] at hbyte
  rw [hpad, padData_getElem, ← hbyte, toNat_append_nibble]

end

/-! ## The decoder operations (43 R160, R161) -/

/-- DECODE_T on a `t` line returns what DecodeLine makes of it. -/
theorem exec_decodeT {l : Bytes} (hlen : 5 ≤ l.length) (hcmd : byteAt l 0 = charT) (s : State) :
    exec (.decodeT l) s = .next (retire (.decode (decodeLine l)) s) := if_pos ⟨hlen, hcmd⟩

/-- Settles O24: the operation's condition holds, and it retires with the fixed result. -/
theorem otherCommandIsUnsupported : Obligations.OtherCommandIsUnsupported :=
  fun _ s hlen hcmd => ⟨_, if_pos ⟨hlen, hcmd⟩, onlyReturns_retire s _⟩

/-- Settles O25: DECODE_T retires with `decodeLine l`, which is MalformedFrame exactly for a malformed line
(`decodeLine_eq_malformedFrame_iff`) and otherwise a frame; its fields are read off the stages it has passed. -/
theorem transmitLineDecodes : Obligations.TransmitLineDecodes := by
  intro l s hlen hcmd
  rw [exec_decodeT hlen hcmd]
  refine ⟨fun hbad => ⟨_, rfl, ?_⟩, fun hgood => ?_⟩
  · rw [(decodeLine_eq_malformedFrame_iff hcmd).mpr hbad]
    exact onlyReturns_retire s _
  · obtain ⟨f, hf⟩ := exists_frame_of_not_lineMalformed hcmd hgood
    obtain ⟨-, hpadding⟩ := canonicalFrame_of_decodeLine hf
    refine ⟨f, _, rfl, ?_, frame_dlc hf, fun _ _ _ => frame_id hf, fun _ hk _ _ => frame_data hf hk, hpadding⟩
    rw [hf]
    exact onlyReturns_retire s _

/-! ## Bytes after the data field (43 R167) -/

section
variable {l : Bytes} (extra : Bytes)

theorem lineId_append (h : 5 ≤ l.length) : lineId (l ++ extra) = lineId l := by
  rw [lineId, byteAt_append_left (by omega), byteAt_append_left (by omega), byteAt_append_left (by omega), lineId]

theorem lineDlc_append (h : 5 ≤ l.length) : lineDlc (l ++ extra) = lineDlc l := by
  simp only [lineDlc, byteAt_append_left h]

/-- The data stage reads no byte at or above its field's end. -/
theorem lineData_append {n : Nat} (h : 5 + 2 * n ≤ l.length) : lineData (l ++ extra) n = lineData l n := by
  induction n with
  | zero => rfl
  | succ n ih =>
    have hbyte : lineDataByte (l ++ extra) n = lineDataByte l n := by
      rw [lineDataByte, byteAt_append_left (by omega), byteAt_append_left (by omega), lineDataByte]
    simp only [lineData, ih (by omega), hbyte]

end

/-- Settles O26: every stage that a decodable line has passed reads the same bytes of the longer line. -/
theorem trailingBytesIgnored : Obligations.TrailingBytesIgnored := by
  intro l extra f h
  obtain ⟨hid, hdlc, hlen, d, hdata, hpad⟩ := decodeLine_eq_frame h
  have hfive : 5 ≤ l.length := by omega
  have hcmd : byteAt (l ++ extra) 0 = charT := by
    rw [byteAt_append_left (by omega), byteAt_zero_of_frame h]
  have hlonger : 5 + 2 * f.dlc.val ≤ (l ++ extra).length := by
    rw [List.length_append]
    omega
  rw [decodeLine_of_stages hcmd ((lineId_append extra hfive).trans hid) ((lineDlc_append extra hfive).trans hdlc)
    hlonger ((lineData_append extra hlen).trans hdata), ← hpad]

end Sys2Proof.Machine

/-! PROOFS. 44_socket: each host operation as its transaction and what it makes of the answer, the runs of OPEN and READ over
many steps, and that only READ touches the accumulator. -/

namespace Sys2Proof.Machine

/-! ## What a transaction leaves alone (44 R189, R190) -/

section
variable (s : State) (l : Bytes)

@[simp] theorem rxTransact_program : (rxTransact s).2.program = s.program := by rw [rxTransact_eq]

@[simp] theorem rxTransact_socket : (rxTransact s).2.socket = s.socket := by rw [rxTransact_eq]

@[simp] theorem rxTransact_maxLine : (rxTransact s).2.maxLine = s.maxLine := by rw [rxTransact_eq]; rfl

@[simp] theorem txTransact_acc : (txTransact l s).2.acc = s.acc := by rw [txTransact_eq]

@[simp] theorem txTransact_program : (txTransact l s).2.program = s.program := by rw [txTransact_eq]

@[simp] theorem txTransact_results : (txTransact l s).2.results = s.results := by rw [txTransact_eq]

@[simp] theorem txTransact_socket : (txTransact l s).2.socket = s.socket := by rw [txTransact_eq]

@[simp] theorem txTransact_maxLine : (txTransact l s).2.maxLine = s.maxLine := by rw [txTransact_eq]; rfl

end

theorem sameAcc_of_acc_eq {s t : State} (h : t.acc = s.acc) : SameAcc s t := by
  rw [SameAcc, h]
  exact ⟨rfl, rfl, fun _ => rfl⟩

/-- An operation that makes one receive transaction and returns. -/
theorem rxTransact_retire_frame (s : State) (r : Result) : Returns s (retire r (rxTransact s).2) r ∧
    RxTaken s (retire r (rxTransact s).2) ∧ SameAcc s (retire r (rxTransact s).2) ∧
    SameSocket s (retire r (rxTransact s).2) :=
  ⟨by simp [Returns], rxTransact_rxTaken s, sameAcc_of_acc_eq (rxTransact_acc s), by simp [SameSocket]⟩

/-- An operation that makes one transmit transaction and returns. -/
theorem txTransact_retire_frame (l : Bytes) (s : State) (r : Result) : Returns s (retire r (txTransact l s).2) r ∧
    TxTaken l s (retire r (txTransact l s).2) ∧ SameAcc s (retire r (txTransact l s).2) ∧
    SameSocket s (retire r (txTransact l s).2) :=
  ⟨by simp [Returns], txTransact_txTaken l s, sameAcc_of_acc_eq (txTransact_acc s l), by simp [SameSocket]⟩

/-! ## The transactions on their own (44 R189, R190) -/

theorem exec_rxRead {s : State} (hl : Live s) :
    exec .rxRead s = .next (retire (.rx (nextRx s)) (rxTransact s).2) := by
  rw [exec, execRxRead, ifSocket_live hl, rxTransact_eq]

theorem exec_txWrite {s : State} (hl : Live s) (l : Bytes) :
    exec (.txWrite l) s = .next (retire (.tx (nextTx s)) (txTransact l s).2) := by
  rw [exec, execTxWrite, ifSocket_live hl, txTransact_eq]

/-- Settles O38: one receive transaction, whose answer is the result. -/
theorem rxReadReturnsAnswer : Obligations.RxReadReturnsAnswer :=
  fun s hl => ⟨_, exec_rxRead hl, rxTransact_retire_frame s _⟩

/-- Settles O39: one transmit transaction of the whole sequence, whose answer is the result. -/
theorem txWriteReturnsAnswer : Obligations.TxWriteReturnsAnswer :=
  fun l s hl => ⟨_, exec_txWrite hl l, txTransact_retire_frame l s _⟩

/-! ## CLOSE and WRITE (44 R183, R184) -/

/-- What CLOSE, and the second write of OPEN, returns for the transport's answer: any count is success (44 R182, R183). -/
def ctlOf : TxResp → CtlResult
  | .written _ => .ok
  | .fail e => .transportFailure e

/-- What WRITE returns for the transport's answer (44 R184). -/
def writeOf : TxResp → WriteResult
  | .written n => .written n
  | .fail e => .transportFailure e

theorem exec_hostClose {s : State} (hl : Live s) :
    exec .hostClose s = .next (retire (.ctl (ctlOf (nextTx s))) (txTransact closeCommand s).2) := by
  rw [exec, execHostClose, ifSocket_live hl, txTransact_eq]
  cases nextTx s <;> rfl

section
variable {s : State} (hl : Live s) {id : U32} {data : Bytes}
include hl

theorem exec_hostWrite_invalidLength (h : encodeTransmit id data = .invalidLength) :
    exec (.hostWrite id data) s = .next (retire (.write .invalidLength) s) := by
  rw [exec, execHostWrite, ifSocket_live hl, h]

theorem exec_hostWrite_ok {line : Bytes} (h : encodeTransmit id data = .ok line) :
    exec (.hostWrite id data) s = .next (retire (.write (writeOf (nextTx s))) (txTransact line s).2) := by
  rw [exec, execHostWrite, ifSocket_live hl, h]
  simp only [txTransact_eq]
  cases nextTx s <;> rfl

end

/-- Settles O31: one transmit transaction of the close line, and `ctlOf` of its answer. -/
theorem closeWritesCloseLine : Obligations.CloseWritesCloseLine := by
  intro s hl
  rw [exec_hostClose hl]
  refine ⟨fun e he => ?_, fun n hn => ?_⟩
  · rw [he]
    exact ⟨_, rfl, txTransact_retire_frame closeCommand s _⟩
  · rw [hn]
    exact ⟨_, rfl, txTransact_retire_frame closeCommand s _⟩

/-- Settles O32: the payload's length decides whether there is a line; a line is sent in one transmit transaction, and its
answer is returned as it is. -/
theorem writeSendsEncodedLine : Obligations.WriteSendsEncodedLine := by
  refine fun id data s hl => ⟨fun hlong => ?_, fun hdata => ⟨_, encodeTransmit_eq_ok hdata, ?_⟩⟩
  · exact ⟨_, exec_hostWrite_invalidLength hl (encodeTransmit_eq_invalidLength hlong), onlyReturns_retire s _⟩
  · rw [exec_hostWrite_ok hl (encodeTransmit_eq_ok hdata)]
    refine ⟨fun n hn => ?_, fun e he => ?_⟩
    · rw [hn]
      exact ⟨_, rfl, txTransact_retire_frame _ s _⟩
    · rw [he]
      exact ⟨_, rfl, txTransact_retire_frame _ s _⟩

/-! ## OPEN (44 R182) -/

section
variable {s : State} (br : BitRate)

theorem exec_hostOpen_ready (h : s.socket = .ready) : exec (.hostOpen br) s = .next (openFirst br s) := by
  have hl : Live s := by simp [Live, h]
  rw [exec, execHostOpen, ifSocket_live hl, if_neg (by simp [h])]

theorem exec_hostOpen_setupSent (h : s.socket = .setupSent) : exec (.hostOpen br) s = .next (openSecond s) := by
  have hl : Live s := by simp [Live, h]
  rw [exec, execHostOpen, ifSocket_live hl, if_pos h]

theorem openFirst_of_fail {e : TransportError} (h : nextTx s = .fail e) :
    openFirst br s = retire (.ctl (.transportFailure e)) (txTransact (setupCommand br) s).2 := by
  rw [openFirst, txTransact_eq, h]

theorem openFirst_of_written {n : Nat} (h : nextTx s = .written n) :
    openFirst br s = { (txTransact (setupCommand br) s).2 with socket := .setupSent } := by
  rw [openFirst, txTransact_eq, h]

variable (s)

theorem openSecond_eq :
    openSecond s = retire (.ctl (ctlOf (nextTx s))) { (txTransact openCommand s).2 with socket := .ready } := by
  rw [openSecond, txTransact_eq]
  cases nextTx s <;> rfl

/-- OPEN's second write, accepted or not, ends it. -/
theorem openSecond_frame : Returns s (openSecond s) (.ctl (ctlOf (nextTx s))) ∧ TxTaken openCommand s (openSecond s) ∧
    SameAcc s (openSecond s) ∧ (openSecond s).socket = .ready ∧ (openSecond s).maxLine = s.maxLine := by
  refine ⟨?_, openSecond_txTaken s, sameAcc_of_acc_eq ?_, ?_, ?_⟩ <;> rw [openSecond_eq]
  · simp [Returns]
  · simp
  · rfl
  · exact txTransact_maxLine s openCommand

end

/-- Settles O29: the phase selects the write, and the answer says what becomes of it. -/
theorem openWritesSetupThenOpen : Obligations.OpenWritesSetupThenOpen := by
  refine fun br s => ⟨fun hs e he => ⟨_, exec_hostOpen_ready br hs, ?_⟩, fun hs n hn => ⟨_, exec_hostOpen_ready br hs, ?_⟩,
    fun hs e he => ⟨_, exec_hostOpen_setupSent br hs, ?_⟩, fun hs n hn => ⟨_, exec_hostOpen_setupSent br hs, ?_⟩⟩
  · rw [openFirst_of_fail br he]
    exact txTransact_retire_frame (setupCommand br) s _
  · refine ⟨?_, openFirst_txTaken br s, sameAcc_of_acc_eq ?_, ?_, ?_⟩ <;> rw [openFirst_of_written br hn]
    · simp [GoesOn]
    · simp
    · exact txTransact_maxLine s (setupCommand br)
  · have h := openSecond_frame s
    rw [he] at h
    exact h
  · have h := openSecond_frame s
    rw [hn] at h
    exact h

theorem step_hostOpen {br : BitRate} {s : State} {more : List Request} (h : s.program = .hostOpen br :: more) :
    step s = exec (.hostOpen br) s :=
  step_eq_exec_of_fetch (by rw [fetch, h]; rfl)

theorem sameAcc_trans {s t u : State} (h : SameAcc s t) (h' : SameAcc t u) : SameAcc s u := by
  obtain ⟨hcount, herr, hread⟩ := h
  obtain ⟨hcount', herr', hread'⟩ := h'
  exact ⟨hcount'.trans hcount, herr'.trans herr, fun i => (hread' i).trans (hread i)⟩

/-- Settles O30: the second clause of `openWritesSetupThenOpen` for the first step, the fourth for the second. -/
theorem openRunsInTwoSteps : Obligations.OpenRunsInTwoSteps := by
  intro br s n m rest more hready hprog htx
  obtain ⟨-, hfirst, -, -⟩ := openWritesSetupThenOpen br s
  obtain ⟨u, hu, ⟨hprogU, hresU⟩, ⟨htrU, hlogU, -⟩, haccU, hphase, hmaxU⟩ :=
    hfirst hready n (by rw [nextTx, htx]; rfl)
  rw [htx] at htrU
  obtain ⟨-, -, -, hsecond⟩ := openWritesSetupThenOpen br u
  obtain ⟨t, ht, ⟨hprogT, hresT⟩, ⟨htrT, hlogT, -⟩, haccT, hreadyT, hmaxT⟩ :=
    hsecond hphase m (by rw [nextTx, htrU]; rfl)
  have hrun : runSteps 2 s = .next t := by
    rw [runSteps_succ ((step_hostOpen hprog).trans hu), runSteps_succ ((step_hostOpen (hprogU.trans hprog)).trans ht),
      runSteps_zero]
  refine ⟨t, hrun, ?_, ?_, ?_, ?_, sameAcc_trans haccU haccT, hreadyT.trans hready.symm, hmaxT.trans hmaxU⟩
  · rw [hprogT, hprogU, hprog]
    rfl
  · rw [hresT, hresU]
  · rw [hlogT, hlogU, nextTx, nextTx, htrU, htx, List.append_assoc]
    rfl
  · rw [htrT, htrU]
    rfl

/-! ## A pass of READ (44 R185, R187) -/

/-- What READ returns for a decoded line (44 R187). -/
def readOf : DecodeResult → ReadResult
  | .frame f => .frame f
  | .malformedFrame => .invalidData
  | .unsupportedCommand => .notReady

section
variable {b : Byte} {s : State}

theorem readByte_of_pending (h : (accDecode s.maxLine b s.acc).1 = .pending) :
    readByte b s = { s with acc := (accDecode s.maxLine b s.acc).2 } := by
  unfold readByte
  generalize accDecode s.maxLine b s.acc = p at h ⊢
  obtain ⟨o, a⟩ := p
  cases h
  rfl

theorem readByte_of_decoded {r : DecodeResult} (h : (accDecode s.maxLine b s.acc).1 = .decoded r) :
    readByte b s = retire (.read (readOf r)) { s with acc := (accDecode s.maxLine b s.acc).2 } := by
  unfold readByte
  generalize accDecode s.maxLine b s.acc = p at h ⊢
  obtain ⟨o, a⟩ := p
  cases h
  cases r <;> rfl

theorem exec_hostRead_byte (hl : Live s) (h : nextRx s = .byte b) :
    exec .hostRead s = .next (readByte b (rxTransact s).2) := by
  rw [exec, execHostRead_eq, ifSocket_live hl, h]

theorem exec_hostRead_empty (hl : Live s) (h : nextRx s = .empty) :
    exec .hostRead s = .next (retire (.read .notReady) (rxTransact s).2) := by
  rw [exec, execHostRead_eq, ifSocket_live hl, h]

theorem exec_hostRead_fail (hl : Live s) {e : TransportError} (h : nextRx s = .fail e) :
    exec .hostRead s = .next (retire (.read (.transportFailure e)) (rxTransact s).2) := by
  rw [exec, execHostRead_eq, ifSocket_live hl, h]

theorem readByte_rxTransact_frame (b : Byte) (s : State) : RxTaken s (readByte b (rxTransact s).2) ∧
    SameSocket s (readByte b (rxTransact s).2) ∧
    (readByte b (rxTransact s).2).acc = (accDecode s.maxLine b s.acc).2 := by
  obtain ⟨hspare, hsocket, -⟩ := readByte_frame b (rxTransact s).2
  have hmax : (readByte b (rxTransact s).2).maxLine = (rxTransact s).2.maxLine := congrArg (· + 22) hspare
  refine ⟨rxTaken_readByte (rxTransact_rxTaken s) b, ⟨hsocket.trans (rxTransact_socket s),
    hmax.trans (rxTransact_maxLine s)⟩, ?_⟩
  rw [readByte_acc, accDecode_acc, rxTransact_maxLine, rxTransact_acc]

theorem readByte_rxTransact_goesOn (h : (accDecode s.maxLine b s.acc).1 = .pending) :
    GoesOn s (readByte b (rxTransact s).2) := by
  rw [readByte_of_pending (by rwa [rxTransact_maxLine, rxTransact_acc])]
  exact ⟨rxTransact_program s, rxTransact_results s⟩

theorem readByte_rxTransact_returns {r : DecodeResult} (h : (accDecode s.maxLine b s.acc).1 = .decoded r) :
    Returns s (readByte b (rxTransact s).2) (.read (readOf r)) := by
  rw [readByte_of_decoded (by rwa [rxTransact_maxLine, rxTransact_acc])]
  simp [Returns]

end

/-- Settles O33: the three answers of the receive transaction; for a byte, what AccDecode makes of it decides. -/
theorem readPassFollowsAccDecode : Obligations.ReadPassFollowsAccDecode := by
  intro s hl
  cases hrx : nextRx s with
  | byte b =>
    obtain ⟨hrxTaken, hsock, hacc⟩ := readByte_rxTransact_frame b s
    refine ⟨_, exec_hostRead_byte hl hrx, hrxTaken, hsock, nofun, nofun, fun b' hb' => ?_⟩
    cases hb'
    exact ⟨hacc, readByte_rxTransact_goesOn, fun f => readByte_rxTransact_returns, readByte_rxTransact_returns,
      readByte_rxTransact_returns⟩
  | empty =>
    obtain ⟨hret, hrxTaken, hacc, hsock⟩ := rxTransact_retire_frame s (.read .notReady)
    exact ⟨_, exec_hostRead_empty hl hrx, hrxTaken, hsock, fun _ => ⟨hret, hacc⟩, nofun, nofun⟩
  | fail e =>
    obtain ⟨hret, hrxTaken, hacc, hsock⟩ := rxTransact_retire_frame s (.read (.transportFailure e))
    refine ⟨_, exec_hostRead_fail hl hrx, hrxTaken, hsock, nofun, fun e' he' => ?_, nofun⟩
    cases he'
    exact ⟨hret, hacc⟩

/-! ## Many passes of READ (44 R185, R186; 70 R238, R243) -/

section
variable {s t : State}

theorem live_of_sameSocket (h : SameSocket s t) (hl : Live s) : Live t := by
  obtain ⟨hsocket, -⟩ := h
  rwa [Live, hsocket]

theorem sameSocket_trans {u : State} (h : SameSocket s t) (h' : SameSocket t u) : SameSocket s u := by
  obtain ⟨hsocket, hmax⟩ := h
  obtain ⟨hsocket', hmax'⟩ := h'
  exact ⟨hsocket'.trans hsocket, hmax'.trans hmax⟩

end

/-- The step of a running READ whose transport gives a byte. -/
theorem step_hostRead_byte {s : State} {b : Byte} {more : List Request} {rest : List RxResp} (hl : Live s)
    (hprog : s.program = .hostRead :: more) (hrx : s.transport.rx = .byte b :: rest) :
    ∃ t, step s = .next t ∧ t.transport = ⟨rest, s.transport.tx⟩ ∧ t.txLog = s.txLog ∧ SameSocket s t ∧
      t.acc = (accDecode s.maxLine b s.acc).2 ∧
      ((accDecode s.maxLine b s.acc).1 = .pending → GoesOn s t) ∧
      ∀ r, (accDecode s.maxLine b s.acc).1 = .decoded r → Returns s t (.read (readOf r)) := by
  obtain ⟨⟨htr, hlog, -⟩, hsock, hacc⟩ := readByte_rxTransact_frame b s
  rw [hrx] at htr
  exact ⟨_, (step_hostRead hprog).trans (exec_hostRead_byte hl (by rw [nextRx, hrx]; rfl)), htr, hlog, hsock, hacc,
    readByte_rxTransact_goesOn, fun r => readByte_rxTransact_returns⟩

/-- Settles O34: induction over the bytes; each is one step that goes on. -/
theorem readRunsOnWithoutValidLine : Obligations.ReadRunsOnWithoutValidLine := by
  intro bs s more rest hl hprog hrx hpend
  induction bs generalizing s with
  | nil => exact ⟨s, rfl, ⟨rfl, rfl⟩, ⟨rfl, rfl⟩, rfl, congrArg (Transport.mk · s.transport.tx) hrx, rfl⟩
  | cons b bs ih =>
    obtain ⟨hb, hbs⟩ := List.cons_eq_cons.mp hpend
    obtain ⟨u, hu, htrU, hlogU, hsockU, haccU, hgoes, -⟩ := step_hostRead_byte hl hprog hrx
    obtain ⟨hprogU, hresU⟩ := hgoes hb
    have ⟨_, hmaxU⟩ := hsockU
    rw [← haccU, ← hmaxU] at hbs
    obtain ⟨t, ht, ⟨hprogT, hresT⟩, hsockT, haccT, htrT, hlogT⟩ :=
      ih u (live_of_sameSocket hsockU hl) (hprogU.trans hprog) (congrArg Transport.rx htrU) hbs
    refine ⟨t, (runSteps_succ hu).trans ht, ⟨hprogT.trans hprogU, hresT.trans hresU⟩, sameSocket_trans hsockU hsockT,
      ?_, ?_, hlogT.trans hlogU⟩
    · rw [haccT, hmaxU, haccU]
      rfl
    · rw [htrT, htrU]

/-- A decoded line comes from a terminator, which leaves a fresh accumulator (42 R141, R146). -/
theorem accDecode_decoded_fresh {cap : Nat} {b : Byte} {a : LineAcc} {r : DecodeResult}
    (h : (accDecode cap b a).1 = .decoded r) : (accDecode cap b a).2.count = 0 ∧ (accDecode cap b a).2.err = false := by
  obtain ⟨hterminator, -⟩ := lineIsolation
  cases hb : isTerminator b with
  | true => exact hterminator cap b a hb
  | false => rw [accDecode_data_out hb] at h; cases h

/-- READ up to the first valid line's terminator, with the result named. -/
theorem runSteps_hostRead_decoded {bs : Bytes} {e : Byte} {r : DecodeResult} {s : State} {more : List Request}
    {rest : List RxResp} (hl : Live s) (hprog : s.program = .hostRead :: more)
    (hrx : s.transport.rx = bs.map .byte ++ .byte e :: rest)
    (hout : (feedDecode s.maxLine (bs ++ [e]) s.acc).1 = List.replicate bs.length .pending ++ [.decoded r]) :
    ∃ t, runSteps (bs.length + 1) s = .next t ∧ t.program = more ∧ t.transport = ⟨rest, s.transport.tx⟩ ∧
      t.txLog = s.txLog ∧ SameSocket s t ∧ t.acc.count = 0 ∧ t.acc.err = false ∧
      t.results = s.results ++ [.read (readOf r)] := by
  rw [feedDecode_append] at hout
  obtain ⟨hpend, hlast⟩ := List.append_inj hout (by simp)
  obtain ⟨u, hu, ⟨hprogU, hresU⟩, hsockU, haccU, htrU, hlogU⟩ :=
    readRunsOnWithoutValidLine bs s more (.byte e :: rest) hl hprog hrx hpend
  have ⟨_, hmaxU⟩ := hsockU
  obtain ⟨t, ht, htrT, hlogT, hsockT, haccT, -, hret⟩ :=
    step_hostRead_byte (b := e) (rest := rest) (live_of_sameSocket hsockU hl) (hprogU.trans hprog)
      (congrArg Transport.rx htrU)
  have hdecoded : (accDecode u.maxLine e u.acc).1 = .decoded r := by
    rw [hmaxU, haccU]
    exact List.head_eq_of_cons_eq hlast
  obtain ⟨hprogT, hresT⟩ := hret r hdecoded
  obtain ⟨hcount, herr⟩ := accDecode_decoded_fresh hdecoded
  refine ⟨t, ?_, ?_, ?_, hlogT.trans hlogU, sameSocket_trans hsockU hsockT, haccT ▸ hcount, haccT ▸ herr, ?_⟩
  · rw [runSteps_add hu, runSteps_succ ht, runSteps_zero]
  · rw [hprogT, hprogU, hprog]
    rfl
  · rw [htrT, htrU]
  · rw [hresT, hresU]

/-- Settles O35: `runSteps_hostRead_decoded`, by the three results a line can have. -/
theorem readReturnsAtFirstValidLine : Obligations.ReadReturnsAtFirstValidLine := by
  intro bs e r s more rest hl hprog hrx hout
  obtain ⟨t, hrun, hprogT, htr, hlog, hsock, hcount, herr, hres⟩ := runSteps_hostRead_decoded hl hprog hrx hout
  refine ⟨t, hrun, hprogT, htr, hlog, hsock, hcount, herr, ?_⟩
  cases r with
  | frame f => exact .inl ⟨f, rfl, hres⟩
  | malformedFrame => exact .inr (.inl ⟨rfl, hres⟩)
  | unsupportedCommand => exact .inr (.inr ⟨rfl, hres⟩)

/-- Settles O36: by the round trip of an encoded line (`encodeThenAccDecodeRoundTrip`) its body is Pending throughout and
its CR decodes to the frame, which is where READ returns. -/
theorem writtenFrameIsDelivered : Obligations.WrittenFrameIsDelivered := by
  intro id data line s more rest hl hcount herr hprog henc hrx
  obtain ⟨f, hout, hid, hdlc, hdata⟩ :=
    encodeThenAccDecodeRoundTrip s.maxLine id data line s.acc (Nat.le_add_left 22 s.spare) hcount herr henc
  obtain ⟨-, rfl⟩ := encodeTransmit_ok henc
  have hlen : (transmitLine id data).length - 1 = (transmitBody id data).length := by simp
  rw [hlen] at hout
  rw [transmitLine_eq_body_append_cr, List.map_append, List.append_assoc] at hrx
  obtain ⟨t, hrun, hprogT, htr, hlog, -, hcountT, herrT, hres⟩ := runSteps_hostRead_decoded hl hprog hrx hout
  have hsteps : 6 + 2 * data.length = (transmitBody id data).length + 1 := by rw [transmitBody_length]; omega
  exact ⟨f, t, hsteps ▸ hrun, hprogT, hres, htr, hlog, hcountT, herrT, hid, hdlc, hdata⟩

/-! ## Operations that ignore the accumulator (44 R191) -/

/-- The same state with another accumulator. -/
def withAcc (a : LineAcc) (s : State) : State := { s with acc := a }

/-- The operation acts alike on any accumulator and hands it on: it neither reads nor writes it. -/
def IgnoresAcc (i : Instr) : Prop :=
  ∀ (s t : State) (a : LineAcc), exec i s = .next t → exec i (withAcc a s) = .next (withAcc a t)

theorem acc_eq_of_ignoresAcc {i : Instr} (hi : IgnoresAcc i) {s t : State} (h : exec i s = .next t) :
    t.acc = s.acc := by
  have hsame : exec i s = .next (withAcc s.acc t) := hi s t s.acc h
  rw [h, Host.Outcome.next.injEq] at hsame
  rw [hsame]
  rfl

section
variable (l : Bytes) (s : State) (a : LineAcc)

theorem txTransact_withAcc : txTransact l (withAcc a s) = ((txTransact l s).1, withAcc a (txTransact l s).2) := by
  rw [txTransact_eq, txTransact_eq]
  rfl

theorem openFirst_withAcc (br : BitRate) : openFirst br (withAcc a s) = withAcc a (openFirst br s) := by
  unfold openFirst
  rw [txTransact_withAcc]
  generalize txTransact (setupCommand br) s = p
  obtain ⟨_ | _, u⟩ := p <;> rfl

theorem openSecond_withAcc : openSecond (withAcc a s) = withAcc a (openSecond s) := by
  rw [openSecond_eq, openSecond_eq, txTransact_withAcc]
  rfl

end

theorem phase_of_exec_hostOpen {br : BitRate} {s t : State} (h : exec (.hostOpen br) s = .next t) :
    s.socket = .ready ∨ s.socket = .setupSent := by
  obtain ⟨hl, -⟩ := ifSocket_next h
  cases hs : s.socket with
  | ready => exact .inl rfl
  | setupSent => exact .inr rfl
  | dropped => exact (hl hs).elim

theorem ignoresAcc_hostOpen (br : BitRate) : IgnoresAcc (.hostOpen br) := by
  intro s t a h
  rcases phase_of_exec_hostOpen h with hs | hs
  · rw [exec_hostOpen_ready br hs] at h
    cases h
    rw [exec_hostOpen_ready br (s := withAcc a s) hs, openFirst_withAcc]
  · rw [exec_hostOpen_setupSent br hs] at h
    cases h
    rw [exec_hostOpen_setupSent br (s := withAcc a s) hs, openSecond_withAcc]

theorem ignoresAcc_hostClose : IgnoresAcc .hostClose := by
  intro s t a h
  obtain ⟨hl, -⟩ := ifSocket_next h
  rw [exec_hostClose hl] at h
  cases h
  rw [exec_hostClose (s := withAcc a s) hl, txTransact_withAcc]
  rfl

theorem ignoresAcc_hostWrite (id : U32) (data : Bytes) : IgnoresAcc (.hostWrite id data) := by
  intro s t a h
  obtain ⟨hl, -⟩ := ifSocket_next h
  cases hline : encodeTransmit id data with
  | invalidLength =>
    rw [exec_hostWrite_invalidLength hl hline] at h
    cases h
    exact exec_hostWrite_invalidLength (s := withAcc a s) hl hline
  | ok line =>
    rw [exec_hostWrite_ok hl hline] at h
    cases h
    rw [exec_hostWrite_ok (s := withAcc a s) hl hline, txTransact_withAcc]
    rfl

/-! ## Which operations touch the accumulator or the socket (44 R182, R191) -/

/-- What an operation may have done to the accumulator and the socket. -/
inductive AccSocketMove (s t : State) : Instr → Prop where
  | keeps {i : Instr} (hacc : t.acc = s.acc) (hsocket : t.socket = s.socket) : AccSocketMove s t i
  | transition {i : Instr} {b : Byte} (hreq : requestOf i = .accStep b) (hsocket : t.socket = s.socket) :
    AccSocketMove s t i
  | hostNew {tr : Transport} (hsocket : t.socket = .ready) : AccSocketMove s t (.hostNew tr)
  | hostOpen {br : BitRate} (hacc : t.acc = s.acc) : AccSocketMove s t (.hostOpen br)
  | hostRead (hsocket : t.socket = s.socket) : AccSocketMove s t .hostRead

/-- Only a transition, NEW and READ set the accumulator, and only NEW and OPEN the socket. -/
theorem exec_acc_socket {i : Instr} {s t : State} (h : exec i s = .next t) : AccSocketMove s t i := by
  cases i with
  | accEnd b | accAppend b | accOverflow b | accDrop b =>
    obtain ⟨-, -, rfl⟩ := runTransition_next h
    exact .transition rfl rfl
  | hostNew tr => cases h; exact .hostNew rfl
  | hostOpen br => exact .hostOpen (acc_eq_of_ignoresAcc (ignoresAcc_hostOpen br) h)
  | hostRead =>
    obtain ⟨hl, -⟩ := ifSocket_next h
    obtain ⟨u, hu, -, ⟨hsocket, -⟩, -⟩ := readPassFollowsAccDecode s hl
    rw [hu] at h
    cases h
    exact .hostRead hsocket
  | hostClose =>
    obtain ⟨hl, -⟩ := ifSocket_next h
    rw [exec_hostClose hl] at h
    cases h
    exact .keeps (txTransact_acc s _) (txTransact_socket s _)
  | hostWrite id data =>
    obtain ⟨hl, -⟩ := ifSocket_next h
    cases hline : encodeTransmit id data with
    | invalidLength =>
      rw [exec_hostWrite_invalidLength hl hline] at h
      cases h
      exact .keeps rfl rfl
    | ok line =>
      rw [exec_hostWrite_ok hl hline] at h
      cases h
      exact .keeps (txTransact_acc s line) (txTransact_socket s line)
  | rxRead =>
    obtain ⟨-, h⟩ := ifSocket_next h
    cases h
    exact .keeps (rxTransact_acc s) (rxTransact_socket s)
  | txWrite l =>
    obtain ⟨-, h⟩ := ifSocket_next h
    cases h
    exact .keeps (txTransact_acc s l) (txTransact_socket s l)
  | decodeT l | unsupportedCommand l =>
    simp only [exec, execDecodeT, execUnsupportedCommand] at h
    split at h <;> cases h
    exact .keeps rfl rfl
  | encodeT _ _ | setup _ | openCmd | closeCmd | hexDigitToValue _ | twoHexDigitsToByte _ _ | hexDigitsToU32 _ _ _
  | valueToHexDigit _ | u32ToThreeHexDigits _ | bytesToHex _ => cases h; exact .keeps rfl rfl

/-- Settles O40: OPEN, CLOSE and WRITE ignore the accumulator, and by `exec_acc_socket` the excepted requests alone stand
for an operation that sets it. -/
theorem onlyReadChangesAccumulator : Obligations.OnlyReadChangesAccumulator := by
  constructor
  · intro i s t a hi h
    have hignores : IgnoresAcc i := by
      rcases hi with ⟨br, rfl⟩ | rfl | ⟨id, data, rfl⟩
      · exact ignoresAcc_hostOpen br
      · exact ignoresAcc_hostClose
      · exact ignoresAcc_hostWrite id data
    exact ⟨acc_eq_of_ignoresAcc hignores h, hignores s t a h⟩
  · intro s t h hreq
    rcases step_cases h with ⟨-, rfl⟩ | ⟨-, rfl⟩ | ⟨i, hf, h⟩
    · rfl
    · rfl
    · obtain ⟨-, rest, hprog⟩ := fetch_run hf
      obtain ⟨hread, hbyte, hnew⟩ := hreq _ rest hprog
      cases exec_acc_socket h with
      | keeps hacc => exact hacc
      | transition hi => exact (hbyte _ hi).elim
      | hostNew => exact (hnew _ rfl).elim
      | hostOpen hacc => exact hacc
      | hostRead => exact (hread rfl).elim

/-! ## A half-done OPEN (44 R182, 20 R49) -/

/-- Only OPEN enters the phase `setupSent`. -/
theorem setupSent_of_exec {i : Instr} {s t : State} (h : exec i s = .next t) (ht : t.socket = .setupSent) :
    (∃ br, i = .hostOpen br) ∨ s.socket = .setupSent := by
  cases exec_acc_socket h with
  | keeps _ hsocket | transition _ hsocket | hostRead hsocket => exact .inr (hsocket.symm.trans ht)
  | hostNew hsocket => rw [hsocket] at ht; cases ht
  | hostOpen => exact .inl ⟨_, rfl⟩

theorem eq_hostOpen_of_requestOf {i : Instr} {br : BitRate} (h : requestOf i = .hostOpen br) : i = .hostOpen br := by
  cases i <;> cases h
  rfl

/-- An OPEN that has sent its setup line and not its open line goes on. -/
theorem goesOn_of_exec_hostOpen {br : BitRate} {s t : State} (h : exec (.hostOpen br) s = .next t)
    (ht : t.socket = .setupSent) : GoesOn s t := by
  rcases phase_of_exec_hostOpen h with hs | hs
  · rw [exec_hostOpen_ready br hs] at h
    cases h
    cases hn : nextTx s with
    | written n =>
      rw [openFirst_of_written br hn]
      exact ⟨txTransact_program s _, txTransact_results s _⟩
    | fail e =>
      rw [openFirst_of_fail br hn, retire_socket, txTransact_socket, hs] at ht
      cases ht
  · rw [exec_hostOpen_setupSent br hs] at h
    cases h
    obtain ⟨-, -, -, hready, -⟩ := openSecond_frame s
    rw [hready] at ht
    cases ht

/-- Settles O51: a step that ends in the phase `setupSent` was an OPEN's, for any other operation would have found that
phase under a request of its own; and that OPEN goes on. -/
theorem stepKeepsOpenRunning : Obligations.StepKeepsOpenRunning := by
  intro s t hs h ht
  rcases step_cases h with ⟨-, rfl⟩ | ⟨-, rfl⟩ | ⟨i, hf, h⟩
  · exact hs ht
  · cases ht
  · obtain ⟨-, rest, hprog⟩ := fetch_run hf
    have hopen : ∃ br, i = .hostOpen br := by
      rcases setupSent_of_exec h ht with hopen | hphase
      · exact hopen
      · obtain ⟨br, rest', hprog'⟩ := hs hphase
        exact ⟨br, eq_hostOpen_of_requestOf (List.head_eq_of_cons_eq (hprog.symm.trans hprog'))⟩
    obtain ⟨br, rfl⟩ := hopen
    obtain ⟨hprogT, -⟩ := goesOn_of_exec_hostOpen h ht
    exact ⟨br, rest, hprogT.trans hprog⟩

end Sys2Proof.Machine

/-! PROOFS. 60_exceptions: the block is idle without a request, and while the socket exists every request that stands for
an operation is answered. -/

namespace Sys2Proof.Machine

/-! ## What is fetched, and what the step does then (00 R2, 60 R216, R217) -/

theorem fetch_eq_select {s : State} {r : Request} {rest : List Request} (h : s.program = r :: rest) :
    fetch s = select s r := by
  rw [fetch, h]

theorem step_eq_next_of_fetch_idle {s : State} (h : fetch s = .idle) : step s = .next s := by
  simp [step, h]

theorem step_eq_execDrop_of_fetch {s : State} (h : fetch s = .drop) : step s = execDrop s := by
  simp [step, h]

/-- Settles O44: without a request nothing is fetched, and then the step is idle. -/
theorem idleHoldsState : Obligations.IdleHoldsState := by
  intro s h
  have hf : fetch s = .idle := by rw [fetch, h]
  exact step_eq_next_of_fetch_idle hf

/-! ## What a request selects is answered (60 R207, 42 R140, 43 R160) -/

/-- A line of at least 5 bytes is an operation (30 R68). -/
theorem exists_selectLine_eq_ok {l : Bytes} (hlen : 5 ≤ l.length) : ∃ i, selectLine l = .ok i := by
  by_cases ht : byteAt l 0 = charT
  · exact ⟨_, selectLine_eq_decodeT ((wf_decodeT_iff l).mpr ⟨hlen, ht⟩)⟩
  · exact ⟨_, selectLine_eq_unsupportedCommand ((wf_unsupportedCommand_iff l).mpr ⟨hlen, ht⟩)⟩

/-- The decoder operation selected for a line meets its own test, whatever the state. -/
theorem exec_answers_of_selectLine {l : Bytes} {i : Instr} (h : selectLine l = .ok i) (s : State) :
    ∃ t, exec i s = .next t := by
  obtain ⟨hwf, hreq⟩ := selectLine_run h
  cases i with
  | decodeT l' => exact ⟨_, if_pos ((wf_decodeT_iff l').mp hwf)⟩
  | unsupportedCommand l' => exact ⟨_, if_pos ((wf_unsupportedCommand_iff l').mp hwf)⟩
  | _ => cases hreq

section
variable {s : State} (hl : Live s)
include hl

theorem runTransition_answers {sel : Bool} (o : AccOut × LineAcc) (hsel : sel = true) :
    ∃ t, runTransition sel o s = .next t :=
  let ⟨t, h, _⟩ := runTransition_selected hl o hsel
  ⟨t, h⟩

/-- The transition selected for a byte meets its own condition (30 R76). -/
theorem exec_selectAcc_answers (b : Byte) :
    ∃ t, exec (selectAcc s.acc.err s.acc.count s.maxLine b) s = .next t := by
  cases hb : isTerminator b with
  | true =>
    rw [selectAcc_eq_accEnd _ _ _ hb]
    exact runTransition_answers hl _ hb
  | false =>
    cases herr : s.acc.err with
    | true =>
      rw [selectAcc_eq_accDrop _ _ hb]
      exact runTransition_answers hl _ (by simp [hb, errored, herr])
    | false =>
      rcases Nat.lt_or_ge s.acc.count s.maxLine with hc | hc
      · rw [selectAcc_eq_accAppend _ _ hb hc]
        exact runTransition_answers hl _ (by simp [hb, filling, herr, hc])
      · rw [selectAcc_eq_accOverflow _ _ hb hc]
        exact runTransition_answers hl _ (by simp [hb, filling, herr, hc])

/-- The operation a request selects is answered. -/
theorem exec_answers_of_select {r : Request} {i : Instr} (h : select s r = .run i) : ∃ t, exec i s = .next t := by
  cases r with
  | accStep b => cases h; exact exec_selectAcc_answers hl b
  | decodeLine l =>
    simp only [select] at h
    cases hsel : selectLine l with
    | ok j => rw [hsel] at h; cases h; exact exec_answers_of_selectLine hsel s
    | error e => rw [hsel] at h; cases h
  | drop => cases h
  | hostOpen _ | hostClose | hostWrite _ _ | hostRead | rxRead | txWrite _ => cases h; exact ⟨_, ifSocket_live hl _⟩
  | _ => cases h; exact ⟨_, rfl⟩

end

/-- What a request stands for: the end of the socket, or an operation, if it is no DecodeLine below 5 bytes. -/
theorem select_drop_or_run {s : State} {r : Request} (h : ∀ l, r = .decodeLine l → 5 ≤ l.length) :
    select s r = .drop ∨ ∃ i, select s r = .run i := by
  cases r with
  | drop => exact .inl rfl
  | decodeLine l =>
    obtain ⟨i, hi⟩ := exists_selectLine_eq_ok (h l rfl)
    exact .inr ⟨i, congrArg ofDecoded hi⟩
  | _ => exact .inr ⟨_, rfl⟩

/-- Settles O43: the step is idle, drops the socket, or runs the operation that the running request selects. -/
theorem stepAnswersWhileSocketExists : Obligations.StepAnswersWhileSocketExists := by
  intro s hl hlen
  cases hprog : s.program with
  | nil => exact ⟨s, idleHoldsState s hprog⟩
  | cons r rest =>
    have hfetch : fetch s = select s r := fetch_eq_select hprog
    rcases select_drop_or_run fun l hr => hlen l rest (hr ▸ hprog) with hdrop | ⟨i, hrun⟩
    · rw [step_eq_execDrop_of_fetch (hfetch.trans hdrop)]
      exact ⟨_, ifSocket_live hl _⟩
    · rw [step_eq_exec_of_fetch (hfetch.trans hrun)]
      exact exec_answers_of_select hl hrun

end Sys2Proof.Machine

/-! PROOFS. 70_reset_and_hazards: NEW makes a fresh socket without a transaction, and a dropped socket has no operation. -/

namespace Sys2Proof.Machine

/-! ## NEW (70 R230) -/

theorem exec_hostNew (tr : Transport) (s : State) :
    exec (.hostNew tr) s = .next (retire .socket (newSocket tr s)) := rfl

/-- Settles O28: NEW is `newSocket` and its result, with no condition and no transaction. -/
theorem newCreatesFreshSocket : Obligations.NewCreatesFreshSocket := fun tr s =>
  ⟨_, exec_hostNew tr s, by simp [Returns]⟩

/-! ## The drop (60 R217, 70 R232) -/

/-- An operation of a dropped socket does not exist (log 12). -/
theorem ifSocket_dropped {s : State} (h : s.socket = .dropped) (o : Host.Outcome State Fault Refusal) :
    ifSocket s o = .fault .noSocket :=
  if_pos h

/-- A drop that is the running request ends the socket. -/
theorem step_drop {s : State} {rest : List Request} (hl : Live s) (h : s.program = .drop :: rest) :
    step s = .next (dropSocket s) :=
  calc step s
    _ = execDrop s := step_eq_execDrop_of_fetch (fetch_eq_select h)
    _ = .next (dropSocket s) := ifSocket_live hl _

theorem sameAcc_dropSocket (s : State) : SameAcc s (dropSocket s) := sameAcc_of_acc_eq (dropSocket_acc s)

theorem sameTransport_dropSocket (s : State) : SameTransport s (dropSocket s) :=
  ⟨dropSocket_transport s, dropSocket_draws s, dropSocket_txLog s⟩

/-- Settles O45: the drop is `dropSocket`, and each of the ten operations is guarded by `ifSocket`. -/
theorem droppedSocketHasNoOperation : Obligations.DroppedSocketHasNoOperation := by
  refine ⟨fun s rest hl hprog => ?_, fun s b br id d hdropped => ?_⟩
  · have hrest : (dropSocket s).program = rest := by simp [hprog]
    exact ⟨_, step_drop hl hprog, dropSocket_socket s, hrest, dropSocket_results s, sameAcc_dropSocket s,
      sameTransport_dropSocket s⟩
  · have hfault := ifSocket_dropped hdropped
    exact ⟨hfault _, hfault _, hfault _, hfault _, hfault _, hfault _, hfault _, hfault _, hfault _, hfault _⟩

end Sys2Proof.Machine
